-- ==== Sys2Proof/Word.lean ====
section
/-! DEFINITION. The words the spec gives the machine: a 32-bit node word, register or write datum (spec 30_encoding.md
R50, 10_state.md R20), a byte of the code-table text (45_toolchain.md R93) and a Code (00_scope.md glossary). -/

namespace Sys2Proof

/-- One node word, one control register, one datum of a host write: `NODE_W` = 32 bits (00_scope.md R5). -/
abbrev Word := BitVec 32

/-- One byte of the persisted code-table text; nothing in the block itself is byte-addressable (10_state.md R20). -/
abbrev Byte := BitVec 8

/-- "a finite sequence of binary choices (0 = left, 1 = right)" (00_scope.md glossary): `false` is 0, `true` is 1. -/
abbrev Code := List Bool

end Sys2Proof
end

