-- ==== Sys2Proof/Config.lean ====
section
/-! DEFINITION. What an instance fixes (spec 00_scope.md R5, R6) and the two values the spec leaves free: the LUT's
contents after power-on (70_reset_and_hazards.md R131) and what a platform's own bus binding carries
(93_implementation_defined.md U6). -/

namespace Sys2Proof

/-- The two address spaces the host reaches (10_state.md R19). -/
inductive Space where
  /-- Control registers, by number. -/
  | csr
  /-- Node words, by index. -/
  | lut
deriving DecidableEq, Repr

/-- A host access of an abstract space: the space, the address and the direction select the operation
(30_encoding.md R58). `data` is `none` for a read and the 32 bits written for a write. -/
structure Access where
  space : Space
  addr : Nat
  data : Option Word
deriving DecidableEq, Repr

/-- A host access on the bus that carries the abstract accesses (20_memory.md R44): a byte offset from the block's base,
the access's width in bits, and the data of a write (`none` for a read). Of a write of another width than 32 the data
does not matter on the default binding: it is refused (R45). -/
structure BusAccess where
  offset : Nat
  width : Nat
  data : Option Word
deriving DecidableEq, Repr

/-- `HOST_BINDING`, "how the abstract host operations are carried on a physical bus" (00_scope.md R5), which the spec
leaves OPEN with a default (20_memory.md R44: "a platform may choose another"). -/
inductive HostBinding where
  /-- The default binding of 20_memory.md R44, R45. -/
  | defaultBus
  /-- A binding the platform chose, by a number that tells one from another (log 10). -/
  | platform (n : Nat)
deriving DecidableEq, Repr

/-- The parameters of an instance, arguments of the step and no constants baked into it (00_scope.md R6). -/
structure Config where
  /-- `SYM_W`, the width of a symbol in bits, 1 to 30 (00_scope.md R5). -/
  symW : Nat
  /-- `IDX_W`, the width of a node index in bits, 1 to 15 (00_scope.md R5). -/
  idxW : Nat
  /-- `HOST_BINDING`, the bus the host's accesses are carried on (00_scope.md R5). -/
  hostBinding : HostBinding
deriving DecidableEq, Repr

/-- The defaults of 00_scope.md R5: `SYM_W` = 16, `IDX_W` = 12, the binding of 20_memory.md R44. -/
def Config.default : Config := { symW := 16, idxW := 12, hostBinding := .defaultBus }

/-- The legal ranges of 00_scope.md R5; every `HOST_BINDING` is legal. -/
abbrev Config.Ok (c : Config) : Prop := 1 ≤ c.symW ∧ c.symW ≤ 30 ∧ 1 ≤ c.idxW ∧ c.idxW ≤ 15

/-- `NODE_COUNT` = 2^IDX_W (00_scope.md R5): every IDX_W-bit value is an index. -/
def Config.nodeCount (c : Config) : Nat := 2 ^ c.idxW

/-- FREE VALUE (70_reset_and_hazards.md R131, 93_implementation_defined.md U1; log 1): the word an entry of the LUT
holds after the given power-on until the host writes it, by the count of power-ons and the index. "any 32-bit value,
the same on every read until written": it has no body, so nothing can be proved of it but that it is one word. -/
opaque Config.powerOnWord : Nat → Nat → Word

/-- FREE VALUE (00_scope.md R5, 93_implementation_defined.md U6; log 10): the abstract access a platform's own binding
carries by a bus access, or none where it carries no host operation. It has no body. -/
opaque Config.platformAccess : Nat → BusAccess → Option Access

end Sys2Proof
end

