-- ==== Sys2Proof/Syntax.lean ====
section
/-! DEFINITION. What the machine executes, one constructor per row of spec/opcode_table.json (30_encoding.md R59), and
the raw forms an instruction is decoded from: a node word, a command word, an access of a host address space, or an
access on the bus. Nothing here says what an instruction does. -/

namespace Sys2Proof

/-- The twelve rows of the opcode table (30_encoding.md R59). -/
inductive Instr where
  /-- `EMPTY`, the placeholder (30_encoding.md R52). -/
  | empty
  /-- `LEAF s`: the leaf's symbol, an unsigned SYM_W-bit number. -/
  | leaf (sym : Nat)
  /-- `NODE l, r`: the indices of the left and right child, 0 for an absent child. -/
  | node (left right : Nat)
  /-- An illegal node word, kept whole (30_encoding.md R55). -/
  | illegal (w : Word)
  /-- `NOP`, the command word 0 (30_encoding.md R58). -/
  | nop
  /-- `START`, the command word 1. -/
  | start
  /-- `CLEAR`, the command word 2. -/
  | clear
  /-- A reserved command word: 3, or any with one of bits 31:2 set. -/
  | reservedCmd (v : Word)
  /-- `CSRRD n`: read of control register n, any n ≥ 0 (41_host_commands.md R77). -/
  | csrrd (n : Nat)
  /-- `CSRWR n, v`: write of v to control register n. -/
  | csrwr (n : Nat) (v : Word)
  /-- `LUTRD i`: read of LUT entry i. -/
  | lutrd (i : Nat)
  /-- `LUTWR i, w`: write of w to LUT entry i. -/
  | lutwr (i : Nat) (w : Word)
deriving DecidableEq, Repr

/-- What an instruction is decoded from, each in its own space (the table's column "space"). -/
inductive Raw where
  /-- A 32-bit node word, fetched from LUT[NP]. -/
  | node (w : Word)
  /-- A command word: the value v of `CSRWR 0, v`. -/
  | command (v : Word)
  /-- A host access of an abstract space. -/
  | access (a : Access)
  /-- A host access on the bus that HOST_BINDING describes. -/
  | bus (b : BusAccess)
deriving DecidableEq, Repr

/-- Whether a host access is a read, which returns a value (41_host_commands.md R77). -/
def Raw.isRead : Raw → Bool
  | .node _ => false
  | .command _ => false
  | .access a => a.data.isNone
  | .bus b => b.data.isNone

/-- Whether a raw form is a host operation: everything but a node word, which only the engine takes in. -/
def Raw.isHost : Raw → Bool
  | .node _ => false
  | .command _ => true
  | .access _ => true
  | .bus _ => true

end Sys2Proof
end

