-- ==== Sys2Proof/WellFormed.lean ====
section
/-! DEFINITION. Which terms of `Instr` stand for something the hardware can meet: the operand ranges of the formats
(spec 30_encoding.md R51), the illegal words (R55) and the reserved commands (R58), each said on numbers and apart from
the decoder. -/

namespace Sys2Proof

/-- 30_encoding.md R55, its four cases: KIND 11; KIND 00 and not all zero; KIND 01 or 10 with a reserved bit set. -/
def illegalWord (c : Config) (w : Word) : Bool :=
  let kind := w.toNat / 2 ^ 30
  let low := w.toNat % 2 ^ 30
  kind == 3 || (kind == 0 && low != 0) || (kind == 1 && decide (2 ^ c.symW ≤ low)) ||
    (kind == 2 && decide (2 ^ (2 * c.idxW) ≤ low))

/-- Well-formedness for an instance: symbols are below 2^SYM_W, child indices below 2^IDX_W (30_encoding.md R51), an
illegal word is one (R55), a reserved command is no command (R58). A host operation takes any number or index
(41_host_commands.md R77): out of range it is refused when it executes, which is its meaning. -/
def WellFormed (c : Config) : Instr → Bool
  | .empty => true
  | .leaf s => decide (s < 2 ^ c.symW)
  | .node l r => decide (l < 2 ^ c.idxW) && decide (r < 2 ^ c.idxW)
  | .illegal w => illegalWord c w
  | .nop => true
  | .start => true
  | .clear => true
  | .reservedCmd v => decide (3 ≤ v.toNat)
  | .csrrd _ => true
  | .csrwr _ _ => true
  | .lutrd _ => true
  | .lutwr _ _ => true

end Sys2Proof
end

