-- ==== Sys2Proof/Decode.lean ====
section
/-! DEFINITION. The decoder, total on every raw form (spec 30_encoding.md R54, R58; 20_memory.md R44, R45), and after it
the encoder (R65), each written from the formats of R51. -/

namespace Sys2Proof

/-- `w[hi:lo]` as an unsigned integer (00_scope.md R7); with `hi + 1 = lo` the slice is empty and is 0, which is what
30_encoding.md R54 asks of its empty slices. -/
def slice (w : Word) (hi lo : Nat) : Nat := (w.toNat >>> lo) % 2 ^ (hi + 1 - lo)

/-- `KIND`, `w[31:30]` (30_encoding.md R50). -/
def kindOf (w : Word) : Nat := slice w 31 30

/-- `DecodeWord(w)`, total on all 2^32 words, for the instance's parameters (30_encoding.md R54, R53). -/
def decodeNode (c : Config) (w : Word) : Instr :=
  if w = 0x00000000#32 then .empty
  else if kindOf w = 1 ∧ slice w 29 c.symW = 0 then .leaf (slice w (c.symW - 1) 0)
  else if kindOf w = 2 ∧ slice w 29 (2 * c.idxW) = 0 then
    .node (slice w (2 * c.idxW - 1) c.idxW) (slice w (c.idxW - 1) 0)
  else .illegal w

/-- The command a value written to CTRL stands for (30_encoding.md R58). -/
def decodeCommand (v : Word) : Instr :=
  if v = 0x00000000#32 then .nop
  else if v = 0x00000001#32 then .start
  else if v = 0x00000002#32 then .clear
  else .reservedCmd v

/-- A host access of an abstract space: space, address and direction select the operation (30_encoding.md R58). -/
def decodeAccess : Access → Instr
  | ⟨.csr, n, none⟩ => .csrrd n
  | ⟨.csr, n, some v⟩ => .csrwr n v
  | ⟨.lut, i, none⟩ => .lutrd i
  | ⟨.lut, i, some w⟩ => .lutwr i w

/-- Why a bus access is no abstract access: the default binding refuses it (20_memory.md R45, the first three, whose
effect is the same), or a platform's own binding carries nothing by it (log 10). -/
inductive DecodeError where
  /-- The access is not exactly 32 bits wide. -/
  | notWholeWord
  /-- The byte offset is not a multiple of 4. -/
  | misaligned
  /-- The access lies outside the 0x40000-byte window. -/
  | outsideWindow
  /-- A platform's own binding carries no host operation by the access. -/
  | notCarried
deriving DecidableEq, Repr

/-- The size of the default binding's window in bytes (20_memory.md R44). -/
def busWindow : Nat := 0x40000

/-- The byte offset at which the default binding's LUT space begins (20_memory.md R44). -/
def busLutBase : Nat := 0x20000

/-- The default bus binding: the abstract access a bus access carries (20_memory.md R44), or why it is refused (R45). -/
def defaultAccess (b : BusAccess) : Except DecodeError Access :=
  if b.width ≠ 32 then .error .notWholeWord
  else if b.offset % 4 ≠ 0 then .error .misaligned
  else if busWindow ≤ b.offset then .error .outsideWindow
  else if b.offset < busLutBase then .ok ⟨.csr, b.offset / 4, b.data⟩
  else .ok ⟨.lut, (b.offset - busLutBase) / 4, b.data⟩

/-- The abstract access a bus access carries on the instance's `HOST_BINDING` (00_scope.md R5), or why it is none. -/
def bindBus (c : Config) (b : BusAccess) : Except DecodeError Access :=
  match c.hostBinding with
  | .defaultBus => defaultAccess b
  | .platform n =>
    match Config.platformAccess n b with
    | some a => .ok a
    | none => .error .notCarried

/-- The decoder, total: an instruction, or the reason by name. Only an access on the bus can have none. -/
def decode (c : Config) : Raw → Except DecodeError Instr
  | .node w => .ok (decodeNode c w)
  | .command v => .ok (decodeCommand v)
  | .access a => .ok (decodeAccess a)
  | .bus b =>
    match bindBus c b with
    | .ok a => .ok (decodeAccess a)
    | .error e => .error e

/-- `EncodeEmpty()` (30_encoding.md R65). -/
def encodeEmpty : Word := 0x00000000#32

/-- `EncodeLeaf(s) = (0b01 << 30) | s` (30_encoding.md R65). -/
def encodeLeaf (s : Nat) : Word := (0b01#32 <<< 30) ||| BitVec.ofNat 32 s

/-- `EncodeNode(l, r) = (0b10 << 30) | (l << IDX_W) | r` (30_encoding.md R65). -/
def encodeNode (c : Config) (l r : Nat) : Word :=
  (0b10#32 <<< 30) ||| (BitVec.ofNat 32 l <<< c.idxW) ||| BitVec.ofNat 32 r

/-- The encoder: the raw form of an instruction in its own space (30_encoding.md R58, R65). -/
def encode (c : Config) : Instr → Raw
  | .empty => .node encodeEmpty
  | .leaf s => .node (encodeLeaf s)
  | .node l r => .node (encodeNode c l r)
  | .illegal w => .node w
  | .nop => .command 0x00000000#32
  | .start => .command 0x00000001#32
  | .clear => .command 0x00000002#32
  | .reservedCmd v => .command v
  | .csrrd n => .access ⟨.csr, n, none⟩
  | .csrwr n v => .access ⟨.csr, n, some v⟩
  | .lutrd i => .access ⟨.lut, i, none⟩
  | .lutwr i w => .access ⟨.lut, i, some w⟩

/-- The bus access that carries an abstract access on the default binding (20_memory.md R44); it reaches the addresses
below 32768 of either space. -/
def encodeBus (a : Access) : BusAccess :=
  match a.space with
  | .csr => ⟨4 * a.addr, 32, a.data⟩
  | .lut => ⟨busLutBase + 4 * a.addr, 32, a.data⟩

/-- DESIGN CHOICE (log 12): the space in which one word of the opcode table is read, for the host's check. A word of up
to 24 bits, or of more than 32, is a bus access: the offset in its low 24 bits, bit 24 set for a write, the data in bits
63:32 (so an 18-bit row alone is a read). A 32-bit word 1, 2 or 3 is a command word, every other one a node word. -/
def rawOfTable (nbits w : Nat) : Raw :=
  if 24 < nbits ∧ nbits ≤ 32 then
    if 1 ≤ w ∧ w ≤ 3 then .command (BitVec.ofNat 32 w) else .node (BitVec.ofNat 32 w)
  else .bus ⟨w % 2 ^ 24, 32, if w / 2 ^ 24 % 2 = 1 then some (BitVec.ofNat 32 (w / 2 ^ 32)) else none⟩

/-- The instruction the decoder reads from one word of the opcode table, at the default parameters the table is for. -/
def decodeTableWord (nbits w : Nat) : Option Instr :=
  match decode Config.default (rawOfTable nbits w) with
  | .ok i => some i
  | .error _ => none

end Sys2Proof
end

