-- ==== Sys2Proof/Machine/State.lean ====
section
/-! DEFINITION. The machine's state as plain data, holding all the spec gives it (10_state.md R13 to R33) and the
environment state a model must carry (R21, R25), the reasons a step can stop, and the state after power-on
(70_reset_and_hazards.md R129 to R131). -/

namespace Sys2Proof.Machine

/-- `STATE`, 2 bits, all four codes in use (10_state.md R15). -/
inductive RunState where
  /-- 0: no run since reset or since the last CLEAR. -/
  | idle
  /-- 1: a decode is in progress; the engine steps. -/
  | run
  /-- 2: the last run ended normally. -/
  | done
  /-- 3: the last run ended in a fault. -/
  | fault
deriving DecidableEq, Repr

/-- `CAUSE`, the codes that are produced (10_state.md R16, 60_exceptions.md R111); 5 to 7 never are (log 19). -/
inductive Cause where
  /-- 0 NONE. -/
  | none
  /-- 1 TRUNCATED: no bit available below the root. -/
  | truncated
  /-- 2 EMPTY_NODE: a placeholder was fetched. -/
  | emptyNode
  /-- 3 NULL_CHILD: the bit taken selects an absent child. -/
  | nullChild
  /-- 4 ILLEGAL_NODE: an illegal word was fetched. -/
  | illegalNode
deriving DecidableEq, Repr

/-- The LUT's written entries, (index, word), indices strictly rising: one canonical form (`Memory.wf`). What an entry
not listed holds is `Config.powerOnWord` (log 1). The unit is the node word (20_memory.md R34). -/
abbrev Memory := List (Nat × Word)

/-- The canonical form: indices strictly rising, so no index twice. No entry can be known to equal the free value an
unlisted index reads as, so every written entry stays listed (log 2). -/
abbrev Memory.wf (m : Memory) : Prop := m.Pairwise fun a b => a.1 < b.1

/-- One step of an agent, or one input of the environment, that is due (00_scope.md R9; log 4, log 7, log 8). -/
inductive Event where
  /-- The engine is scheduled. -/
  | engine
  /-- HOST: a command word, the value of `CSRWR 0, v` (30_encoding.md R58). -/
  | command (v : Word)
  /-- HOST: an access of an abstract space (10_state.md R19). -/
  | access (a : Access)
  /-- HOST: an access on the bus of HOST_BINDING (20_memory.md R44). -/
  | bus (b : BusAccess)
  /-- RESET: the reset input `rst` (70_reset_and_hazards.md R129). -/
  | rst
  /-- RESET: power-on, after which the LUT is unspecified (70_reset_and_hazards.md R131). -/
  | powerOn
  /-- The environment: the undelivered bits of the Bit Source on the port are now these (70_reset_and_hazards.md
  R135 (3), R140 (e), R141). -/
  | stream (bs : List Bool)
deriving DecidableEq, Repr

/-- The whole machine, plain data. -/
structure State where
  /-- The instance's parameters SYM_W, IDX_W and HOST_BINDING (00_scope.md R5, R6); no step changes them. -/
  cfg : Config
  /-- `LUT`, its written entries (10_state.md R18). -/
  lut : Memory
  /-- The model's own: which power-on the unwritten entries' contents stem from (log 8). -/
  powerOns : Nat
  /-- `NP`, the node pointer, an IDX_W-bit unsigned number (10_state.md R14; log 18). -/
  np : Nat
  /-- `STATE` (10_state.md R15). -/
  state : RunState
  /-- `CAUSE` (10_state.md R16). -/
  cause : Cause
  /-- `HOSTERR` (10_state.md R17). -/
  hostErr : Bool
  /-- The Bit Source's undelivered bits, next first (10_state.md R21), finitely many (70_reset_and_hazards.md R145). -/
  bits : List Bool
  /-- The symbols the sink has accepted, oldest first (10_state.md R25). -/
  out : List Nat
  /-- The model's own: the values host reads have returned, oldest first (41_host_commands.md R77; log 6). -/
  returned : List Word
  /-- The model's own: the steps that are due, next first; when it is empty the engine steps (log 4). It is finite, so the
  engine is eventually scheduled (70_reset_and_hazards.md R145, `State.EngineDueAfter`). -/
  pending : List Event
deriving DecidableEq, Repr

/-- Why the machine can stop. -/
inductive Fault where
  /-- Raised by the engine's turn when NP names an index that does not exist (NP ≥ NODE_COUNT; `MemRead` is given no
  meaning there, 00_scope.md R8). SAFE: no reachable state has such an NP (10_state.md R14; log 9). -/
  | noSuchEntry
deriving DecidableEq, Repr

/-- Why an instruction has no meaning. -/
inductive Refusal where
  /-- Raised by an arm of `exec` for an instruction not modelled; no arm does. SAFE. -/
  | notModelled (mnemonic : String)
deriving DecidableEq, Repr

/-- The machine right after power-on: STATE, CAUSE, NP and HOSTERR as 70_reset_and_hazards.md R129 gives them, the LUT
with nothing written (R131). DESIGN CHOICE: the default parameters (log 3), an empty Bit Source and sink (log 5), and
the model's own fields at their empty values (log 4, log 6, log 8). -/
def State.reset : State where
  cfg := Config.default
  lut := []
  powerOns := 0
  np := 0
  state := .idle
  cause := .none
  hostErr := false
  bits := []
  out := []
  returned := []
  pending := []

end Sys2Proof.Machine
end

