-- ==== Sys2Proof/Machine/Ops.lean ====
section
/-! DEFINITION. The named operations every meaning is written over: the LUT (spec 20_memory.md R34, R37), the Bit Source
and the Symbol sink (10_state.md R21 to R25), taking a fault (60_exceptions.md R117) and leaving it (R121), starting and
ending a run, refusing a host operation (41_host_commands.md R77), and reset (70_reset_and_hazards.md R129 to R131). -/

namespace Sys2Proof.Machine

/-- The word written at an index, if one is listed. -/
def Memory.read? : Memory → Nat → Option Word
  | [], _ => none
  | (j, w) :: m, i => if i = j then some w else Memory.read? m i

/-- Write of a word at an index, in the canonical form: the list stays rising, an entry already listed is replaced. -/
def Memory.write : Memory → Nat → Word → Memory
  | [], i, w => [(i, w)]
  | (j, v) :: m, i, w =>
    if i < j then (i, w) :: (j, v) :: m
    else if i = j then (i, w) :: m
    else (j, v) :: Memory.write m i w

/-- `MemRead(i, 1)`: the whole word LUT[i] (00_scope.md R8); an entry not written since power-on holds its free but
stable word (70_reset_and_hazards.md R131). -/
def memRead (s : State) (i : Nat) : Word := (Memory.read? s.lut i).getD (Config.powerOnWord s.powerOns i)

/-- `MemWrite(i, 1, w)`: LUT[i] ← w (00_scope.md R8). Only the host performs it. -/
def memWrite (i : Nat) (w : Word) (s : State) : State := { s with lut := Memory.write s.lut i w }

/-- The engine's fetch of LUT[NP] (40_node_words.md R147), at an index that exists (10_state.md R18). -/
def fetch (s : State) : Option Word := if s.np < s.cfg.nodeCount then some (memRead s s.np) else none

/-- `BsHas()` (10_state.md R22). -/
def bsHas (s : State) : Bool := !s.bits.isEmpty

/-- `BsTake()`: the first undelivered bit, consumed (10_state.md R23); no value when there is none
(93_implementation_defined.md U2). -/
def bsTake (s : State) : Option (Bool × State) :=
  match s.bits with
  | [] => none
  | b :: rest => some (b, { s with bits := rest })

/-- `SymOut(s)`: the sink appends the symbol (10_state.md R25). -/
def symOut (sym : Nat) (s : State) : State := { s with out := s.out ++ [sym] }

/-- `NP ← i` (10_state.md R14). -/
def moveTo (i : Nat) (s : State) : State := { s with np := i }

/-- TAKING A FAULT, `raise Fault(c)`: STATE ← FAULT, CAUSE ← c and nothing else; NP stays at the word that faulted
(60_exceptions.md R117, R116). -/
def raiseFault (c : Cause) (s : State) : State := { s with state := .fault, cause := c }

/-- LEAVING A FAULT, and any end of a run: what an accepted CLEAR does (60_exceptions.md R121, 41_host_commands.md
R81). -/
def acknowledge (s : State) : State := { s with state := .idle, cause := .none, np := 0, hostErr := false }

/-- The normal end of a run: STATE ← DONE (40_node_words.md R71). -/
def endRun (s : State) : State := { s with state := .done }

/-- The start of a run: NP ← 0, STATE ← RUN (41_host_commands.md R80). -/
def beginRun (s : State) : State := { s with np := 0, state := .run }

/-- A host operation is refused: its only effect on the block is HOSTERR ← 1 (41_host_commands.md R77, 10_state.md
R17). -/
def refuseOp (s : State) : State := { s with hostErr := true }

/-- A host read returns a value (41_host_commands.md R77). -/
def hostReturn (v : Word) (s : State) : State := { s with returned := s.returned ++ [v] }

/-- A host read is refused: HOSTERR ← 1 and it returns 0 (41_host_commands.md R77). -/
def refuseRead (s : State) : State := hostReturn 0x00000000#32 (refuseOp s)

/-- An access the default bus binding refuses: a read returns 0, a write changes nothing, HOSTERR is set
(20_memory.md R45). -/
def refuseAccess (isRead : Bool) (s : State) : State := if isRead then refuseRead s else refuseOp s

/-- A bus access that is no abstract access: the default binding refuses it; what a platform's own binding does not carry
never reaches the block, and nothing of the block changes (HOSTERR has no such event, 41_host_commands.md R86;
log 10). -/
def dropAccess (e : DecodeError) (isRead : Bool) (s : State) : State :=
  match e with
  | .notWholeWord => refuseAccess isRead s
  | .misaligned => refuseAccess isRead s
  | .outsideWindow => refuseAccess isRead s
  | .notCarried => s

/-- The reset input: the four registers; the LUT, `bits` and `out` are not touched (70_reset_and_hazards.md R129 to
R131). -/
def resetBlock (s : State) : State := { s with state := .idle, cause := .none, np := 0, hostErr := false }

/-- Power-on: a reset after which every LUT entry is unspecified anew (70_reset_and_hazards.md R131). -/
def powerOnBlock (s : State) : State := resetBlock { s with lut := [], powerOns := s.powerOns + 1 }

/-- The environment puts another sequence of undelivered bits on the port (70_reset_and_hazards.md R135 (3)). -/
def setStream (bs : List Bool) (s : State) : State := { s with bits := bs }

/-- The steps that are due from now on. -/
def setPending (es : List Event) (s : State) : State := { s with pending := es }

end Sys2Proof.Machine
end

