-- ==== Sys2Proof/Machine/Operands.lean ====
section
/-! DEFINITION. How an operand is taken apart or chosen: the child a stream bit selects (spec 30_encoding.md R53) and the
fields of a value written to CTRL (10_state.md R27). -/

namespace Sys2Proof.Machine

/-- `child = (b = 0) ? LEFT : RIGHT` (30_encoding.md R53). -/
def childOf (b : Bool) (l r : Nat) : Nat := if b = false then l else r

/-- CTRL's field `CMD`, `v[1:0]` (10_state.md R27). -/
def cmdField (v : Word) : Nat := slice v 1 0

/-- CTRL's reserved field, `v[31:2]` (10_state.md R27). -/
def cmdReserved (v : Word) : Nat := slice v 31 2

end Sys2Proof.Machine
end

