-- ==== Sys2Proof/Machine/Command.lean ====
section
/-! DEFINITION. The meanings of the commands NOP, START, CLEAR and of the reserved commands (spec 41_host_commands.md R79
to R82). -/

namespace Sys2Proof.Machine

/-- `NOP`: changes nothing, in every STATE (41_host_commands.md R79). -/
def execNop (s : State) : Host.Outcome State Fault Refusal := .next s

/-- `START`: in IDLE or DONE a run begins at the root; in RUN or FAULT it is refused (41_host_commands.md R80). -/
def execStart (s : State) : Host.Outcome State Fault Refusal :=
  if s.state = .idle ∨ s.state = .done then .next (beginRun s) else .next (refuseOp s)

/-- `CLEAR`: acknowledges in IDLE, DONE and FAULT; in RUN it is refused, a run cannot be cancelled
(41_host_commands.md R81). -/
def execClear (s : State) : Host.Outcome State Fault Refusal :=
  if s.state ≠ .run then .next (acknowledge s) else .next (refuseOp s)

/-- A reserved command is refused in every STATE (41_host_commands.md R82). -/
def execReservedCmd (s : State) : Host.Outcome State Fault Refusal := .next (refuseOp s)

end Sys2Proof.Machine
end

