-- ==== Sys2Proof/Machine/Flags.lean ====
section
/-! DEFINITION. The codes of STATE and CAUSE, the four control registers as the host reads them (spec 10_state.md R27 to
R31), and the three level outputs (R32). -/

namespace Sys2Proof.Machine

/-- The 2-bit code of STATE (10_state.md R15). -/
def RunState.code : RunState → BitVec 2
  | .idle => 0#2
  | .run => 1#2
  | .done => 2#2
  | .fault => 3#2

/-- The 3-bit code of CAUSE (10_state.md R16). -/
def Cause.code : Cause → BitVec 3
  | .none => 0#3
  | .truncated => 1#3
  | .emptyNode => 2#3
  | .nullChild => 3#3
  | .illegalNode => 4#3

/-- `STATUS = (HOSTERR << 8) | (CAUSE << 4) | STATE` (10_state.md R28). -/
def State.statusWord (s : State) : Word :=
  ((BitVec.ofBool s.hostErr).setWidth 32 <<< 8) ||| (s.cause.code.setWidth 32 <<< 4) ||| s.state.code.setWidth 32

/-- CSR 2, `zext_32(NP)` (10_state.md R29). -/
def State.npWord (s : State) : Word := BitVec.ofNat 32 s.np

/-- CSR 3, `CONFIG = (IDX_W << 8) | SYM_W` (10_state.md R30). -/
def configWord (c : Config) : Word := (BitVec.ofNat 32 c.idxW <<< 8) ||| BitVec.ofNat 32 c.symW

/-- What a read of control register n returns; no value for n ≥ 4, which does not exist (41_host_commands.md R83,
10_state.md R27 to R31). -/
def csrValue (s : State) (n : Nat) : Option Word :=
  match n with
  | 0 => some 0x00000000#32
  | 1 => some s.statusWord
  | 2 => some s.npWord
  | 3 => some (configWord s.cfg)
  | _ => none

/-- The output `busy` (10_state.md R32). -/
def State.busy (s : State) : Bool := s.state == .run

/-- The output `done` (10_state.md R32). -/
def State.doneOut (s : State) : Bool := s.state == .done

/-- The output `fault` (10_state.md R32). -/
def State.faultOut (s : State) : Bool := s.state == .fault

end Sys2Proof.Machine
end

