-- ==== Sys2Proof/Machine/HostAccess.lean ====
section
/-! DEFINITION. The meanings of the host accesses CSRRD, CSRWR, LUTRD and LUTWR (spec 41_host_commands.md R78, R83 to
R85). -/

namespace Sys2Proof.Machine

/-- `CSRRD n`: the register's value; n ≥ 4 does not exist, HOSTERR ← 1 and 0 is returned (41_host_commands.md R83). -/
def execCsrrd (n : Nat) (s : State) : Host.Outcome State Fault Refusal :=
  match csrValue s n with
  | some v => .next (hostReturn v s)
  | none => .next (refuseRead s)

/-- `CSRWR n, v`: only CTRL can be written, and there the value selects the command (41_host_commands.md R78). -/
def execCsrwr (n : Nat) (v : Word) (s : State) : Host.Outcome State Fault Refusal :=
  if n ≠ 0 then .next (refuseOp s)
  else if cmdReserved v ≠ 0 then .next (refuseOp s)
  else
    match cmdField v with
    | 0 => execNop s
    | 1 => execStart s
    | 2 => execClear s
    | _ => .next (refuseOp s)

/-- `LUTRD i`: the whole word, in every STATE; out of range it is refused and returns 0 (41_host_commands.md R85). -/
def execLutrd (i : Nat) (s : State) : Host.Outcome State Fault Refusal :=
  if s.cfg.nodeCount ≤ i then .next (refuseRead s) else .next (hostReturn (memRead s i) s)

/-- `LUTWR i, w`: stores any word unchecked; refused in RUN (the write lock, 20_memory.md R47) and out of range
(41_host_commands.md R84). -/
def execLutwr (i : Nat) (w : Word) (s : State) : Host.Outcome State Fault Refusal :=
  if s.state = .run ∨ s.cfg.nodeCount ≤ i then .next (refuseOp s) else .next (memWrite i w s)

end Sys2Proof.Machine
end

