-- ==== Sys2Proof/Machine/Node.lean ====
section
/-! DEFINITION. The meanings of the node words EMPTY, LEAF, NODE and ILLEGAL: what one engine step does with the word it
fetched (spec 40_node_words.md R67 to R72). Whether the engine steps at all (STATE = RUN) is the engine's turn's
(Machine/Agents.lean; R66, log 20). -/

namespace Sys2Proof.Machine

/-- `EMPTY`: `raise Fault(EMPTY_NODE)`; the Bit Source is not consulted (40_node_words.md R69). -/
def execEmpty (s : State) : Host.Outcome State Fault Refusal := .next (raiseFault .emptyNode s)

/-- `LEAF s`: emit the symbol; at the root the run ends (R72), elsewhere NP returns to the root (40_node_words.md
R67). -/
def execLeaf (sym : Nat) (s : State) : Host.Outcome State Fault Refusal :=
  if s.np = 0 then .next (endRun (symOut sym s)) else .next (moveTo 0 (symOut sym s))

/-- `NODE l, r`: with no bit, the normal end at the root and TRUNCATED below it; with one, the bit is consumed and
selects the child, and an absent child faults NULL_CHILD (40_node_words.md R68). -/
def execNode (l r : Nat) (s : State) : Host.Outcome State Fault Refusal :=
  match bsTake s with
  | none => if s.np = 0 then .next (endRun s) else .next (raiseFault .truncated s)
  | some (b, s') =>
    if childOf b l r = 0 then .next (raiseFault .nullChild s') else .next (moveTo (childOf b l r) s')

/-- An illegal word: `raise Fault(ILLEGAL_NODE)` (40_node_words.md R70). -/
def execIllegal (s : State) : Host.Outcome State Fault Refusal := .next (raiseFault .illegalNode s)

end Sys2Proof.Machine
end

