-- ==== Sys2Proof/Machine/Dispatch.lean ====
section
/-! DEFINITION. One arm per row of the opcode table: which meaning an instruction has (spec 30_encoding.md R59). -/

namespace Sys2Proof.Machine

def exec (i : Instr) (s : State) : Host.Outcome State Fault Refusal :=
  match i with
  | .empty => Sys2Proof.Machine.execEmpty s
  | .leaf sym => Sys2Proof.Machine.execLeaf sym s
  | .node left right => Sys2Proof.Machine.execNode left right s
  | .illegal _ => Sys2Proof.Machine.execIllegal s
  | .nop => Sys2Proof.Machine.execNop s
  | .start => Sys2Proof.Machine.execStart s
  | .clear => Sys2Proof.Machine.execClear s
  | .reservedCmd _ => Sys2Proof.Machine.execReservedCmd s
  | .csrrd n => Sys2Proof.Machine.execCsrrd n s
  | .csrwr n v => Sys2Proof.Machine.execCsrwr n v s
  | .lutrd idx => Sys2Proof.Machine.execLutrd idx s
  | .lutwr idx w => Sys2Proof.Machine.execLutwr idx w s

end Sys2Proof.Machine
end

