-- ==== Sys2Proof/Machine/Agents.lean ====
section
/-! DEFINITION. One turn of each agent (spec 00_scope.md R9): the engine's fetch, decode and execute (40_node_words.md
R66), a host operation, a reset, and the environment's input. -/

namespace Sys2Proof.Machine

/-- The engine's turn: it has a step exactly when STATE = RUN, and then executes the word at LUT[NP]; otherwise nothing
happens (40_node_words.md R66). -/
def engineTurn (s : State) : Host.Outcome State Fault Refusal :=
  if s.state = .run then
    match fetch s with
    | some w => exec (decodeNode s.cfg w) s
    | none => .fault .noSuchEntry
  else .next s

/-- A host operation's turn: the instruction its raw form decodes to, or what becomes of a bus access that is none
(20_memory.md R45, log 10). -/
def hostTurn (r : Raw) (s : State) : Host.Outcome State Fault Refusal :=
  match decode s.cfg r with
  | .ok i => exec i s
  | .error e => .next (dropAccess e r.isRead s)

/-- The turn that is due: each is one atomic step (00_scope.md R9). -/
def turn (e : Event) (s : State) : Host.Outcome State Fault Refusal :=
  match e with
  | .engine => engineTurn s
  | .command v => hostTurn (.command v) s
  | .access a => hostTurn (.access a) s
  | .bus b => hostTurn (.bus b) s
  | .rst => .next (resetBlock s)
  | .powerOn => .next (powerOnBlock s)
  | .stream bs => .next (setStream bs s)

/-- The event by which the host issues an operation in a raw form; a node word is no host operation and runs by the
engine's turn. -/
def eventOf : Raw → Event
  | .node _ => .engine
  | .command v => .command v
  | .access a => .access a
  | .bus b => .bus b

/-- The state in which the very next step takes in the raw form: a node word stands at LUT[NP] of an engine that is
running and due, a host operation is due (log 13, log 25). -/
def placeRaw (r : Raw) (s : State) : State :=
  match r with
  | .node w => setPending (.engine :: s.pending) { memWrite s.np w s with state := .run }
  | .command v => setPending (.command v :: s.pending) s
  | .access a => setPending (.access a :: s.pending) s
  | .bus b => setPending (.bus b :: s.pending) s

end Sys2Proof.Machine
end

