-- ==== Sys2Proof/Machine/Step.lean ====
section
/-! DEFINITION. One step of the machine: the next turn that is due, and the engine's turn when none is (spec 00_scope.md
R9; log 4). -/

namespace Sys2Proof.Machine

/-- One step (00_scope.md R9): the first turn of the list, and the engine's turn when the list is empty, which is how the
engine is scheduled in the end (70_reset_and_hazards.md R145). No step has a duration. -/
def step (s : State) : Host.Outcome State Fault Refusal :=
  match s.pending with
  | [] => engineTurn s
  | e :: es => turn e (setPending es s)

/-- The state whose very next step takes in one word of the opcode table (log 12, log 13, log 25). -/
def State.withFetchWord (s : State) (nbits w : Nat) : State := placeRaw (rawOfTable nbits w) s

end Sys2Proof.Machine
end

