-- ==== Sys2Proof/Machine/Ports.lean ====
section
/-! DEFINITION. The port signals of the Bit Source and the Symbol sink (spec 10_state.md R24, R26): functions of the
state a step starts from, since the block stores none of them (R33; log 11). -/

namespace Sys2Proof.Machine

/-- Whether the next step is the engine's and the engine has one (40_node_words.md R66). -/
def engineMoves (s : State) : Bool :=
  (match s.pending with
    | [] => true
    | .engine :: _ => true
    | _ => false) && s.state == .run

/-- The node word the next step would execute, when it is the engine's. -/
def wordInStep (s : State) : Option Instr := if engineMoves s then (fetch s).map (decodeNode s.cfg) else none

/-- `bs_has`: the value `BsHas()` returns (10_state.md R24). -/
def State.bsHasSignal (s : State) : Bool := bsHas s

/-- `bs_bit`: the bit `BsTake()` would return; no value when `bs_has` = 0, where the signal means nothing
(10_state.md R24). -/
def State.bsBit (s : State) : Option Bool := s.bits.head?

/-- `bs_take`: asserted in exactly those engine steps that call `BsTake()` (10_state.md R24). -/
def State.bsTakeSignal (s : State) : Bool :=
  match wordInStep s with
  | some (.node _ _) => bsHas s
  | _ => false

/-- `sym_data`: the symbol of the step's `SymOut`; no value when there is none (10_state.md R26). -/
def State.symData (s : State) : Option Nat :=
  match wordInStep s with
  | some (.leaf sym) => some sym
  | _ => none

/-- `sym_valid`: asserted in exactly those engine steps that call `SymOut` (10_state.md R26). -/
def State.symValid (s : State) : Bool := s.symData.isSome

end Sys2Proof.Machine
end

