-- ==== Sys2Proof/Machine/Image.lean ====
section
/-! DEFINITION. The shapes of what a LUT or an image holds (spec 30_encoding.md R60): the indices reachable from the root,
PartialTree, FullTree, SingleLeaf, and the Code of an index. They are said of the decoded words by index, so that they
serve the LUT and an image alike. -/

namespace Sys2Proof.Machine

/-- The decoded word at an index of the LUT. -/
def nodeAt (s : State) (i : Nat) : Instr := decodeNode s.cfg (memRead s i)

/-- `Reach`, the least set of indices that contains 0 and the present children of its nodes (30_encoding.md R60). -/
inductive Reach (t : Nat → Instr) : Nat → Prop where
  | root : Reach t 0
  | left {p l r : Nat} : Reach t p → t p = .node l r → l ≠ 0 → Reach t l
  | right {p l r : Nat} : Reach t p → t p = .node l r → r ≠ 0 → Reach t r

/-- The child field of a word on a side (`false` left, `true` right); only a NODE has one. -/
def childField (i : Instr) (side : Bool) : Option Nat :=
  match i with
  | .node l r => some (childOf side l r)
  | _ => none

/-- `PartialTree` (30_encoding.md R60): what the Deserializer yields from any prefix-free set of Codes. That 0 is no
child needs no clause: a child field equal to 0 is an absent child (20_memory.md R39). -/
structure PartialTree (t : Nat → Instr) : Prop where
  words : ∀ p, Reach t p →
    (∃ s, t p = .leaf s) ∨ (∃ l r, t p = .node l r ∧ ¬(l = 0 ∧ r = 0)) ∨ (p = 0 ∧ t p = .empty)
  oneParent : ∀ q, Reach t q → q ≠ 0 →
    ∃ p side, (Reach t p ∧ childField (t p) side = some q) ∧
      ∀ p' side', Reach t p' → childField (t p') side' = some q → p' = p ∧ side' = side

/-- `FullTree` (30_encoding.md R60): the document's invariant, every non-leaf node has exactly two children. -/
structure FullTree (t : Nat → Instr) : Prop where
  isPartial : PartialTree t
  rootPresent : t 0 ≠ .empty
  bothChildren : ∀ p l r, Reach t p → t p = .node l r → l ≠ 0 ∧ r ≠ 0

/-- `SingleLeaf` (30_encoding.md R60). -/
def SingleLeaf (t : Nat → Instr) : Prop := ∃ s, t 0 = .leaf s

/-- The index a sequence of bits leads to from an index, through NODE words and present children only. -/
def walkCode (t : Nat → Instr) : Nat → Code → Option Nat
  | p, [] => some p
  | p, b :: code =>
    match t p with
    | .node l r => if childOf b l r = 0 then none else walkCode t (childOf b l r) code
    | _ => none

/-- A sequence of bits is a Code of an index: the sides along the path from 0 to it (30_encoding.md R60). -/
abbrev HasCode (t : Nat → Instr) (p : Nat) (code : Code) : Prop := walkCode t 0 code = some p

/-- A leaf with its Code and its symbol. -/
def LeafCode (t : Nat → Instr) (sym : Nat) (code : Code) : Prop := ∃ p, HasCode t p code ∧ t p = .leaf sym

end Sys2Proof.Machine
end

