-- ==== Sys2Proof/Machine/Toolchain.lean ====
section
/-! DEFINITION. The host software around the block, on images and trees (spec 45_toolchain.md): the Code Deserializer
(R97 to R102), the Code Serializer (R104, R105) and the Tree Builder (R106 to R109). Pure functions of the host; none
is hardware (R91) and none of their errors is a fault of the engine (60_exceptions.md R128). -/

namespace Sys2Proof.Toolchain

open Sys2Proof.Machine

/-- The errors of the toolchain (45_toolchain.md R110), and the one way the model's Serializer stops of its own. -/
inductive ToolError where
  /-- No symbol has a positive count (R106). -/
  | emptyAlphabet
  /-- The tree is absent: the root or a reachable entry is EMPTY or illegal (R105). -/
  | invalidTree
  /-- The text is not a code table (R94 to R96). -/
  | malformedCode
  /-- The Codes are not prefix-free or not unique (R99). -/
  | codeConflict
  /-- The symbol does not fit the symbol field (R100). -/
  | symbolRange
  /-- The tree does not fit the LUT (R101). -/
  | imageFull
  /-- The model's own: the image is cyclic and the Serializer's walk need not end (R105,
  93_implementation_defined.md U13; log 16). -/
  | endlessWalk
deriving DecidableEq, Repr

/-- An image under construction: the map from indices to node words, in the LUT's own canonical form, and the next
unused index (45_toolchain.md R97). -/
structure Image where
  cells : Memory
  nfree : Nat
deriving DecidableEq, Repr

/-- The image holding only the empty placeholder root (45_toolchain.md R97). -/
def Image.initial : Image := { cells := [(0, encodeEmpty)], nfree := 1 }

/-- The decoded word of an image at an index; an entry the image does not hold counts as illegal (log 15). -/
def Image.nodeAt (c : Config) (img : Image) (i : Nat) : Instr :=
  match Memory.read? img.cells i with
  | some w => decodeNode c w
  | none => .illegal 0xFFFFFFFF#32

/-- The child fields the walk of `Insert` goes on from: a placeholder has none yet, a leaf ends every Code
(45_toolchain.md R98, R99 (a)); an illegal word, which no image of the Deserializer holds, is no tree (log 15). -/
def childFields : Instr → Except ToolError (Nat × Nat)
  | .leaf _ => .error .codeConflict
  | .empty => .ok (0, 0)
  | .node l r => .ok (l, r)
  | _ => .error .invalidTree

/-- One character of `Insert`'s walk: to the child that is there, or to a new placeholder at the next unused index,
linked into the node (45_toolchain.md R98, R101). -/
def insertStep (c : Config) (img : Image) (p : Nat) (b : Bool) : Except ToolError (Image × Nat) :=
  match childFields (img.nodeAt c p) with
  | .error e => .error e
  | .ok (l, r) =>
    if childOf b l r ≠ 0 then .ok (img, childOf b l r)
    else if c.nodeCount ≤ img.nfree then .error .imageFull
    else
      let n := img.nfree
      let linked := if b then encodeNode c l n else encodeNode c n r
      .ok ({ cells := Memory.write (Memory.write img.cells n encodeEmpty) p linked, nfree := n + 1 }, n)

/-- `Insert`'s walk along the Code's bits from an index (45_toolchain.md R98). -/
def insertWalk (c : Config) (img : Image) (p : Nat) : Code → Except ToolError (Image × Nat)
  | [] => .ok (img, p)
  | b :: code =>
    match insertStep c img p b with
    | .error e => .error e
    | .ok (img', p') => insertWalk c img' p' code

/-- The end of `Insert`: the placeholder becomes the leaf; anything else is a conflict (45_toolchain.md R98, R99 (b),
(c)). -/
def placeLeaf (c : Config) (s : Nat) (img : Image) (p : Nat) : Except ToolError Image :=
  match img.nodeAt c p with
  | .empty => .ok { img with cells := Memory.write img.cells p (encodeLeaf s) }
  | .node _ _ => .error .codeConflict
  | .leaf _ => .error .codeConflict
  | _ => .error .invalidTree

/-- `Insert(img, nfree, s, code)` (45_toolchain.md R98); the symbol's range is checked first (R100). -/
def insertPair (c : Config) (img : Image) (s : Int) (code : Code) : Except ToolError Image :=
  if s < 0 ∨ (2 : Int) ^ c.symW ≤ s then .error .symbolRange
  else
    match insertWalk c img 0 code with
    | .error e => .error e
    | .ok (img', p) => placeLeaf c s.toNat img' p

/-- `Insert` of each pair in order, on an image (45_toolchain.md R97); the first error is fatal and leaves nothing
(R102). -/
def insertAll (c : Config) (img : Image) : List (Int × Code) → Except ToolError Image
  | [] => .ok img
  | (s, code) :: rest =>
    match insertPair c img s code with
    | .error e => .error e
    | .ok img' => insertAll c img' rest

/-- `deserialize(pairs)` (45_toolchain.md R97). -/
def deserialize (c : Config) (pairs : List (Int × Code)) : Except ToolError Image := insertAll c Image.initial pairs

/-- `Walk(p, path)` of the Serializer, depth first, left before right (45_toolchain.md R104, R105). `depth` bounds the
length of a path: one longer than NODE_COUNT meets an index twice, and the walk then has no end (log 16). -/
def serializeWalk (c : Config) (img : Image) : Nat → Nat → Code → Except ToolError (List (Nat × Code))
  | 0, _, _ => .error .endlessWalk
  | depth + 1, p, path =>
    match img.nodeAt c p with
    | .leaf s => .ok [(s, path)]
    | .node l r =>
      match if l = 0 then .ok [] else serializeWalk c img depth l (path ++ [false]) with
      | .error e => .error e
      | .ok left =>
        match if r = 0 then .ok [] else serializeWalk c img depth r (path ++ [true]) with
        | .error e => .error e
        | .ok right => .ok (left ++ right)
    | _ => .error .invalidTree

/-- `serialize(tree)` on an image (45_toolchain.md R104). -/
def serialize (c : Config) (img : Image) : Except ToolError (List (Nat × Code)) :=
  serializeWalk c img c.nodeCount 0 []

/-- The tree the Builder makes: a leaf holds one symbol, an internal node two children (00_scope.md glossary). -/
inductive CodeTree where
  | leaf (sym : Nat)
  | node (left right : CodeTree)
deriving DecidableEq, Repr

/-- The pairs of a built tree, in the Serializer's order (45_toolchain.md R104). -/
def CodeTree.pairsFrom : CodeTree → Code → List (Nat × Code)
  | .leaf s, path => [(s, path)]
  | .node l r, path => CodeTree.pairsFrom l (path ++ [false]) ++ CodeTree.pairsFrom r (path ++ [true])

/-- `serialize` of a built tree (45_toolchain.md R104). -/
def CodeTree.pairs (t : CodeTree) : List (Nat × Code) := CodeTree.pairsFrom t []

/-- The number of nodes of a tree, the LUT entries it needs. -/
def CodeTree.size : CodeTree → Nat
  | .leaf _ => 1
  | .node l r => CodeTree.size l + CodeTree.size r + 1

/-- The canonical image of a built tree, `Deserialize(Serialize(t))` (45_toolchain.md R109). -/
def canonicalImage (c : Config) (t : CodeTree) : Except ToolError Image :=
  deserialize c (t.pairs.map fun sc => ((sc.1 : Int), sc.2))

/-- A node in the Builder's priority collection: its weight, its sequence number, its tree (45_toolchain.md R106,
R107). -/
structure Weighted where
  weight : Nat
  seq : Nat
  tree : CodeTree
deriving DecidableEq, Repr

/-- Extraction order: the least (weight, sequence number) (45_toolchain.md R107). -/
def Weighted.before (a b : Weighted) : Bool := a.weight < b.weight || (a.weight == b.weight && a.seq < b.seq)

/-- Extraction of the first of a collection that is not empty, given as a head and the rest. -/
def extractMin (a : Weighted) : List Weighted → Weighted × List Weighted
  | [] => (a, [])
  | b :: rest =>
    if b.before a then ((extractMin b rest).1, a :: (extractMin b rest).2)
    else ((extractMin a rest).1, b :: (extractMin a rest).2)

/-- The Builder's loop: the two lowest are combined, the first extracted on the left, until one node remains
(45_toolchain.md R106). `fuel` is the number of nodes, one fewer after every combination; `seq` the next sequence
number. -/
def combineAll : Nat → Nat → Weighted → List Weighted → CodeTree
  | 0, _, a, _ => a.tree
  | fuel + 1, seq, a, rest =>
    match extractMin a rest with
    | (x, []) => x.tree
    | (x, b :: rest') =>
      match extractMin b rest' with
      | (y, others) => combineAll fuel (seq + 1) ⟨x.weight + y.weight, seq, .node x.tree y.tree⟩ others

/-- A frequency table: symbols with their counts; a mapping, so no symbol twice (00_scope.md glossary; log 17). -/
abbrev FreqTable := List (Nat × Nat)

/-- Insertion of an entry by ascending symbol (45_toolchain.md R107). -/
def insertBySymbol (e : Nat × Nat) : FreqTable → FreqTable
  | [] => [e]
  | f :: rest => if e.1 ≤ f.1 then e :: f :: rest else f :: insertBySymbol e rest

/-- The entries that take part, those with a positive count, in ascending order of symbol (45_toolchain.md R106,
R107). -/
def alphabet : FreqTable → FreqTable
  | [] => []
  | e :: rest => if e.2 = 0 then alphabet rest else insertBySymbol e (alphabet rest)

/-- The initial leaves, numbered in their order of insertion (45_toolchain.md R107). -/
def initialLeaves (seq : Nat) : FreqTable → List Weighted
  | [] => []
  | (s, n) :: rest => ⟨n, seq, .leaf s⟩ :: initialLeaves (seq + 1) rest

/-- `build(frequencies)` (45_toolchain.md R106, R107, R108). -/
def build (freqs : FreqTable) : Except ToolError CodeTree :=
  match initialLeaves 0 (alphabet freqs) with
  | [] => .error .emptyAlphabet
  | a :: rest => .ok (combineAll (rest.length + 1) (rest.length + 1) a rest)

/-- The total weighted code length, Σ frequency × code length (95_test_vectors.md section 1.3). -/
def weightedLength (freqs : FreqTable) (pairs : List (Nat × Code)) : Nat :=
  (pairs.map fun sc => (freqs.lookup sc.1).getD 0 * sc.2.length).sum

end Sys2Proof.Toolchain
end

