-- ==== Sys2Proof/Machine/Text.lean ====
section
/-! DEFINITION. The texts of the toolchain (spec 45_toolchain.md R92 to R96; 30_encoding.md R62 to R64): the persisted code
table, read and written; the node listing; and the loading of an image (R103). -/

namespace Sys2Proof.Toolchain

open Sys2Proof.Machine

/-- A carriage return immediately before a line feed is dropped (45_toolchain.md R93); the line is held reversed. -/
def dropReturn : List Byte → List Byte
  | [] => []
  | b :: line => if b = 0x0D#8 then line else b :: line

/-- The lines of a text, the current line held reversed: a line feed ends one; bytes after the last line feed are one
more line if there are any (45_toolchain.md R93). -/
def linesFrom : List Byte → List Byte → List (List Byte)
  | cur, [] => if cur.isEmpty then [] else [cur.reverse]
  | cur, b :: rest =>
    if b = 0x0A#8 then (dropReturn cur).reverse :: linesFrom [] rest else linesFrom (b :: cur) rest

/-- The lines of a text (45_toolchain.md R93). -/
def lines (text : List Byte) : List (List Byte) := linesFrom [] text

/-- The value of a decimal digit, `0` to `9`. -/
def digitValue (b : Byte) : Option Nat :=
  if 0x30 ≤ b.toNat ∧ b.toNat ≤ 0x39 then some (b.toNat - 0x30) else none

/-- The value of decimal digits after a value already read; no value if one is no digit. -/
def digitsFrom (acc : Nat) : List Byte → Option Nat
  | [] => some acc
  | b :: rest =>
    match digitValue b with
    | some d => digitsFrom (10 * acc + d) rest
    | none => none

/-- One or more decimal digits (45_toolchain.md R94). -/
def readDigits (line : List Byte) : Option Nat := if line.isEmpty then none else digitsFrom 0 line

/-- A symbol line: an optional `-`, then one or more decimal digits, nothing else (45_toolchain.md R94). -/
def readSymbol (line : List Byte) : Option Int :=
  match line with
  | [] => none
  | b :: rest =>
    if b = 0x2D#8 then (readDigits rest).map fun n => -(n : Int) else (readDigits line).map fun n => (n : Int)

/-- A code line: zero or more characters, each `0` or `1` (45_toolchain.md R95). -/
def readCode : List Byte → Option Code
  | [] => some []
  | b :: rest =>
    if b = 0x30#8 then (readCode rest).map (false :: ·)
    else if b = 0x31#8 then (readCode rest).map (true :: ·)
    else none

/-- The reader: line pairs, each inserted as it is read, until the lines end; a pair without its counterpart and a line
that cannot be read are `MalformedCodeError` (45_toolchain.md R92, R94 to R96; log 14). -/
def insertLines (c : Config) (img : Image) : List (List Byte) → Except ToolError Image
  | [] => .ok img
  | [_] => .error .malformedCode
  | symLine :: codeLine :: rest =>
    match readSymbol symLine, readCode codeLine with
    | some s, some code =>
      match insertPair c img s code with
      | .ok img' => insertLines c img' rest
      | .error e => .error e
    | _, _ => .error .malformedCode

/-- A code-table text to its image (45_toolchain.md R92, R97). -/
def deserializeText (c : Config) (text : List Byte) : Except ToolError Image :=
  insertLines c Image.initial (lines text)

/-- The decimal digits of a number, in front of digits already written; `fuel` is more than the number of digits. -/
def decimalFrom : Nat → Nat → List Byte → List Byte
  | 0, _, acc => acc
  | fuel + 1, n, acc =>
    if n < 10 then BitVec.ofNat 8 (0x30 + n) :: acc
    else decimalFrom fuel (n / 10) (BitVec.ofNat 8 (0x30 + n % 10) :: acc)

/-- A symbol as a base-10 integer (45_toolchain.md R92). -/
def decimal (n : Nat) : List Byte := decimalFrom (n + 1) n []

/-- A Code as a string of `0` and `1` characters (45_toolchain.md R92). -/
def codeText (code : Code) : List Byte := code.map fun b => if b then 0x31#8 else 0x30#8

/-- The code-table text of pairs: two lines a pair, every line ended by one line feed (45_toolchain.md R92, R93). -/
def writePairs : List (Nat × Code) → List Byte
  | [] => []
  | (s, code) :: rest => decimal s ++ [0x0A#8] ++ codeText code ++ [0x0A#8] ++ writePairs rest

/-- `serialize` to text (45_toolchain.md R104). -/
def serializeText (c : Config) (img : Image) : Except ToolError (List Byte) :=
  match serialize c img with
  | .ok pairs => .ok (writePairs pairs)
  | .error e => .error e

/-- One line of the node listing without its index (30_encoding.md R63). -/
inductive ListingItem where
  | empty
  | leaf (sym : Nat)
  | node (left right : Nat)
  /-- `.word w`, the word verbatim: the only way to write an illegal word. -/
  | word (w : Word)
deriving DecidableEq, Repr

/-- The word a listing line stands for (30_encoding.md R63). -/
def ListingItem.encoded (c : Config) : ListingItem → Word
  | .empty => encodeEmpty
  | .leaf s => encodeLeaf s
  | .node l r => encodeNode c l r
  | .word w => w

/-- The image entries a listing stands for: one line per entry, `<index>: <item>` (30_encoding.md R63). DESIGN CHOICE
(log 28): of two lines for one index, of which R63 says nothing, the later one stands. -/
def assemble (c : Config) (listing : List (Nat × ListingItem)) : Memory :=
  listing.foldl (fun m line => Memory.write m line.1 (line.2.encoded c)) []

/-- `LOAD <image>`: one `LUTWR i, w` per entry, in ascending order of index (30_encoding.md R64, 45_toolchain.md
R103). -/
def load (image : Memory) : List Event := image.map fun e => .access ⟨.lut, e.1, some e.2⟩

/-- A host session up to the start of the run: load the image, then START (41_host_commands.md R89). -/
def loadAndStart (image : Memory) : List Event := load image ++ [.command 0x00000001#32]

end Sys2Proof.Toolchain
end

