-- ==== Sys2Proof/Safety.lean ====
section
/-! DEFINITION. What counts as a good state and a good end of a run, in the terms the claims use. -/

namespace Sys2Proof.Machine

/-- What every state the machine reaches satisfies: legal parameters (spec 00_scope.md R5); the LUT in canonical form
with indices that exist (10_state.md R18); NP an index (R14) and 0 outside a run that ended in a fault or goes on
(40_node_words.md R71); CAUSE non-zero exactly in FAULT (10_state.md R16); symbols of SYM_W bits (R25). -/
structure State.Inv (s : State) : Prop where
  cfgOk : s.cfg.Ok
  lutWf : Memory.wf s.lut
  lutRange : ∀ e ∈ s.lut, e.1 < s.cfg.nodeCount
  npRange : s.np < s.cfg.nodeCount
  npAtRest : s.state = .idle ∨ s.state = .done → s.np = 0
  causeIff : s.cause ≠ .none ↔ s.state = .fault
  outRange : ∀ x ∈ s.out, x < 2 ^ s.cfg.symW

/-- A run has ended: STATE is DONE or FAULT (70_reset_and_hazards.md R146). -/
def State.Ended (s : State) : Prop := s.state = .done ∨ s.state = .fault

/-- Success is DONE; a fault is an end but never a good end (60_exceptions.md R122). -/
def State.GoodEnd (s : State) : Prop := s.state = .done

/-- What may be observed of a finished run (70_reset_and_hazards.md R146). -/
structure Observation where
  /-- (1) the symbols appended to `out`, in order. -/
  gained : List Nat
  /-- (2) the bits removed from `bits`, a front part of what was there at START. -/
  consumed : List Bool
  /-- (2) the bits left. -/
  left : List Bool
  /-- (3) the final STATE. -/
  state : RunState
  /-- (4) CAUSE. -/
  cause : Cause
  /-- (5) NP. -/
  np : Nat
  /-- (6) HOSTERR. -/
  hostErr : Bool
deriving DecidableEq, Repr

/-- The observation of a run that began at `s` and is at `t` (70_reset_and_hazards.md R146). DESIGN CHOICE (log 30): the
bits consumed are the front part of START's bits by which the bits now left are fewer; that is what the engine took when
no `stream` event falls inside the run, and where one does R146 does not say which bits count as consumed. -/
def observe (s t : State) : Observation where
  gained := t.out.drop s.out.length
  consumed := s.bits.take (s.bits.length - t.bits.length)
  left := t.bits
  state := t.state
  cause := t.cause
  np := t.np
  hostErr := t.hostErr

/-- What the engine reads and writes, and what its run's result is made of: everything but HOSTERR and the model's own
`returned` and `pending` (40_node_words.md R66, 41_host_commands.md R87). -/
structure SameRun (s t : State) : Prop where
  cfg : t.cfg = s.cfg
  lut : t.lut = s.lut
  powerOns : t.powerOns = s.powerOns
  np : t.np = s.np
  state : t.state = s.state
  cause : t.cause = s.cause
  bits : t.bits = s.bits
  out : t.out = s.out

/-- The engine's turn is due (log 4). -/
def State.EngineDue (s : State) : Prop := s.pending = [] ∨ ∃ es, s.pending = .engine :: es

/-- A host operation is due that decodes to the instruction. -/
def State.HostDue (s : State) (i : Instr) : Prop :=
  ∃ r es, r.isHost = true ∧ s.pending = eventOf r :: es ∧ decode s.cfg r = .ok i

/-- START is due, as the command or as the write of 1 to CTRL (41_host_commands.md R77). -/
def State.StartDue (s : State) : Prop := s.HostDue .start ∨ s.HostDue (.csrwr 0 0x00000001#32)

/-- CLEAR is due, as the command or as the write of 2 to CTRL. -/
def State.ClearDue (s : State) : Prop := s.HostDue .clear ∨ s.HostDue (.csrwr 0 0x00000002#32)

/-- The reset input or power-on is due. -/
def State.ResetDue (s : State) : Prop := ∃ es, s.pending = .rst :: es ∨ s.pending = .powerOn :: es

/-- `k` steps, stopping at the first fault or refusal. -/
def steps : Nat → State → Host.Outcome State Fault Refusal
  | 0, s => .next s
  | k + 1, s =>
    match step s with
    | .next t => steps k t
    | .fault r => .fault r
    | .refused r => .refused r

/-- The engine is due after `k` steps, if the machine has not stopped before: the weak fairness that the end of a run
rests on, "the engine, when `STATE = RUN`, is eventually scheduled" (70_reset_and_hazards.md R145). Every state has it for
the length of its list (`engine_eventually_due`; log 4). -/
def State.EngineDueAfter (k : Nat) (s : State) : Prop := ∀ t, steps k s = .next t → t.EngineDue

/-- Two child fields are both absent, or both present and related. -/
def SameChild (R : Nat → Nat → Prop) (a b : Nat) : Prop := (a = 0 ∧ b = 0) ∨ (a ≠ 0 ∧ b ≠ 0 ∧ R a b)

/-- Two words of two layouts of one tree: of one kind, the same symbol, related children. -/
def SameWord (R : Nat → Nat → Prop) : Instr → Instr → Prop
  | .empty, .empty => True
  | .leaf a, .leaf b => a = b
  | .node l r, .node l' r' => SameChild R l l' ∧ SameChild R r r'
  | .illegal _, .illegal _ => True
  | _, _ => False

/-- Two contents of the LUT give the reachable part one shape: a relation of their indices, root to root, along which
the words agree (30_encoding.md R61). -/
structure SameShape (R : Nat → Nat → Prop) (t u : Nat → Instr) : Prop where
  root : R 0 0
  rootOnly : ∀ p q, R p q → (p = 0 ↔ q = 0)
  word : ∀ p q, R p q → SameWord R (t p) (u q)

end Sys2Proof.Machine
end

