-- ==== Sys2Proof/Certificates/Slice0/Obligations.lean ====
section
/-! DEFINITION. The statements for the provers, from the numbered rules of spec/. -/

open Sys2Proof Sys2Proof.Machine Sys2Proof.Toolchain

/-! ## Encoding -/

/-- Decode of encode is the instruction, for every well-formed instruction at every legal parameter (30_encoding.md R65
for the node words, R58 for the host operations). -/
def Obligations.DecodeOfEncodeIsTheInstruction : Prop :=
  ∀ c : Config, c.Ok → ∀ i : Instr, WellFormed c i = true → decode c (encode c i) = .ok i

/-- 30_encoding.md R65, the other direction, and for illegal words too: encoding what a node word decodes to gives the
word back, and what it decodes to is well-formed. -/
def Obligations.EncodeOfDecodeIsTheNodeWord : Prop :=
  ∀ c : Config, c.Ok → ∀ w : Word,
    encode c (decodeNode c w) = .node w ∧ WellFormed c (decodeNode c w) = true

/-- 30_encoding.md R55, its four cases bit by bit: KIND 11; KIND 00 with a bit of 29:0 set; KIND 01 with a bit of
29:SYM_W set; KIND 10 with a bit of 29:2·IDX_W set. -/
def Obligations.IllegalWordsAreTheFourCases : Prop :=
  ∀ c : Config, c.Ok → ∀ w : Word,
    decodeNode c w = .illegal w ↔
      (w.getLsbD 31 = true ∧ w.getLsbD 30 = true) ∨
      (w.getLsbD 31 = false ∧ w.getLsbD 30 = false ∧ ∃ k, k < 30 ∧ w.getLsbD k = true) ∨
      (w.getLsbD 31 = false ∧ w.getLsbD 30 = true ∧ ∃ k, c.symW ≤ k ∧ k < 30 ∧ w.getLsbD k = true) ∨
      (w.getLsbD 31 = true ∧ w.getLsbD 30 = false ∧ ∃ k, 2 * c.idxW ≤ k ∧ k < 30 ∧ w.getLsbD k = true)

/-- 30_encoding.md R54 at the default parameters, as match and mask, with the fields the word holds. -/
def Obligations.NodeWordsByMaskAndMatch : Prop :=
  ∀ w : Word,
    (decodeNode Config.default w = .empty ↔ w = 0x00000000#32) ∧
    ((∃ s, decodeNode Config.default w = .leaf s) ↔ w &&& 0xFFFF0000#32 = 0x40000000#32) ∧
    ((∃ l r, decodeNode Config.default w = .node l r) ↔ w &&& 0xFF000000#32 = 0x80000000#32) ∧
    (∀ s, decodeNode Config.default w = .leaf s → s = (w &&& 0x0000FFFF#32).toNat) ∧
    (∀ l r, decodeNode Config.default w = .node l r →
      l = (w >>> 12 &&& 0x00000FFF#32).toNat ∧ r = (w &&& 0x00000FFF#32).toNat)

/-- 30_encoding.md R58: each command is one word, every other word is reserved, and the other host operations are
selected by space, address and direction. -/
def Obligations.CommandWordsAreThese : Prop :=
  ∀ (c : Config) (v : Word),
    (decode c (.command v) = .ok .nop ↔ v = 0x00000000#32) ∧
    (decode c (.command v) = .ok .start ↔ v = 0x00000001#32) ∧
    (decode c (.command v) = .ok .clear ↔ v = 0x00000002#32) ∧
    (decode c (.command v) = .ok (.reservedCmd v) ↔
      v = 0x00000003#32 ∨ ∃ k, 2 ≤ k ∧ k < 32 ∧ v.getLsbD k = true) ∧
    ∀ n : Nat,
      decode c (.access ⟨.csr, n, none⟩) = .ok (.csrrd n) ∧
      decode c (.access ⟨.csr, n, some v⟩) = .ok (.csrwr n v) ∧
      decode c (.access ⟨.lut, n, none⟩) = .ok (.lutrd n) ∧
      decode c (.access ⟨.lut, n, some v⟩) = .ok (.lutwr n v)

/-- Words written out from the formats of 30_encoding.md R51 and R58 decode to what they stand for (sanity). -/
def Obligations.WrittenOutWordsDecode : Prop :=
  decodeNode Config.default 0b00000000000000000000000000000000#32 = .empty ∧
  decodeNode Config.default 0b01000000000000000000000001100110#32 = .leaf 102 ∧
  decodeNode Config.default 0b10000000000000000111000000001010#32 = .node 7 10 ∧
  decodeNode Config.default 0b01000000000000010000000001000001#32 = .illegal 0x40010041#32 ∧
  decodeCommand 0b00000000000000000000000000000001#32 = .start ∧
  decodeCommand 0b10000000000000000000000000000010#32 = .reservedCmd 0x80000002#32

/-- 20_memory.md R44: on the default bus binding (`HOST_BINDING` at its default) CSR n is at byte offset 4n and LUT[i] at 0x20000 + 4i, up to address
32767 of either space; an aligned 32-bit access there is the access of the abstract space. -/
def Obligations.BusBindingCarriesEveryAddress : Prop :=
  ∀ (c : Config) (n : Nat) (d : Option Word), c.hostBinding = .defaultBus → n < 32768 →
    decode c (.bus ⟨4 * n, 32, d⟩) = decode c (.access ⟨.csr, n, d⟩) ∧
    decode c (.bus ⟨0x20000 + 4 * n, 32, d⟩) = decode c (.access ⟨.lut, n, d⟩)

/-- 20_memory.md R45: on the default bus binding an access that is not 32 bits wide, or misaligned, or outside the window,
is refused: a read returns 0, a write changes nothing, HOSTERR is set. -/
def Obligations.BusBindingRefusesTheRest : Prop :=
  ∀ (s : State) (b : BusAccess) (es : List Event),
    s.cfg.hostBinding = .defaultBus → s.pending = .bus b :: es → (b.width ≠ 32 ∨ b.offset % 4 ≠ 0 ∨ 0x40000 ≤ b.offset) →
    (b.data = none →
      step s = .next { s with pending := es, hostErr := true, returned := s.returned ++ [0x00000000#32] }) ∧
    (∀ v, b.data = some v → step s = .next { s with pending := es, hostErr := true })

/-- 00_scope.md R5, 93_implementation_defined.md U6: whatever binding a platform chose (the free `Config.platformAccess`),
a bus access is the step of the abstract access it carries; one that carries none leaves the block as it is, which is the
model's choice (log 10). -/
def Obligations.PlatformBindingCarriesOnlyAbstractAccesses : Prop :=
  ∀ (s : State) (n : Nat) (b : BusAccess) (es : List Event),
    s.cfg.hostBinding = .platform n → s.pending = .bus b :: es →
    step s =
      match Config.platformAccess n b with
      | some a => step { s with pending := .access a :: es }
      | none => .next { s with pending := es }

/-! ## The step -/

/-- The engine's step fetches the word at NP and executes what it decodes to, when the engine is due and in RUN
(40_node_words.md R66); where NP is no index the machine stops (the model's own, log 9). -/
def Obligations.EngineStepRunsTheFetchedWord : Prop :=
  ∀ (s : State) (i : Instr), s.state = .run →
    (s.np < s.cfg.nodeCount → decode s.cfg (.node (memRead s s.np)) = .ok i →
      (s.pending = [] → step s = exec i s) ∧
      (∀ es, s.pending = .engine :: es → step s = exec i { s with pending := es })) ∧
    (s.cfg.nodeCount ≤ s.np → s.EngineDue → step s = .fault .noSuchEntry)

/-- 40_node_words.md R66: in IDLE, DONE and FAULT the engine has no step. That a turn of the engine can be due there, and is
then a step of the model that answers the same state, is the model's choice (log 4, log 24). -/
def Obligations.EngineRestsOutsideRun : Prop :=
  ∀ s : State, s.state = .idle ∨ s.state = .done ∨ s.state = .fault →
    (s.pending = [] → step s = .next s) ∧
    (∀ es, s.pending = .engine :: es → step s = .next { s with pending := es })

/-- A host operation that is due is executed: the instruction its raw form decodes to (00_scope.md R9). -/
def Obligations.HostStepRunsTheDecodedOperation : Prop :=
  ∀ (s : State) (r : Raw) (i : Instr) (es : List Event),
    r.isHost = true → s.pending = eventOf r :: es → decode s.cfg r = .ok i →
    step s = exec i { s with pending := es }

/-- 70_reset_and_hazards.md R129, R130: what a reset writes, what it leaves, and what reads after it. -/
def Obligations.ResetWritesTheFourRegisters : Prop :=
  ∀ (s : State) (es : List Event), s.pending = .rst :: es →
    ∃ t, step s = .next t ∧
      t = { s with pending := es, state := .idle, cause := .none, np := 0, hostErr := false } ∧
      t.statusWord = 0x00000000#32 ∧ t.npWord = 0x00000000#32 ∧ configWord t.cfg = configWord s.cfg ∧
      t.busy = false ∧ t.doneOut = false ∧ t.faultOut = false ∧ t.bsTakeSignal = false ∧ t.symValid = false

/-- 70_reset_and_hazards.md R131 (the counter of power-ons is the model's own, log 8): after power-on no entry is
written, each holds its unspecified word, and the registers are as after a reset. -/
def Obligations.PowerOnLeavesTheLutUnspecified : Prop :=
  ∀ (s : State) (es : List Event), s.pending = .powerOn :: es →
    ∃ t, step s = .next t ∧
      t.state = .idle ∧ t.cause = .none ∧ t.np = 0 ∧ t.hostErr = false ∧
      t.bits = s.bits ∧ t.out = s.out ∧ t.cfg = s.cfg ∧ t.returned = s.returned ∧ t.pending = es ∧
      ∀ i, memRead t i = Config.powerOnWord (s.powerOns + 1) i

/-- The state after power-on as the host reads it (10_state.md section 10); the default parameters
(log 3), that its unwritten entries read as the free value (log 1) and that this is power-on number 0 (log 8) are the
model's choices. -/
def Obligations.ResetStateReadsAsTheTable : Prop :=
  State.reset.state = .idle ∧ State.reset.cause = .none ∧ State.reset.np = 0 ∧ State.reset.hostErr = false ∧
  State.reset.statusWord = 0x00000000#32 ∧ State.reset.npWord = 0x00000000#32 ∧
  configWord State.reset.cfg = 0x00000C10#32 ∧
  State.reset.busy = false ∧ State.reset.doneOut = false ∧ State.reset.faultOut = false ∧
  State.reset.bsTakeSignal = false ∧ State.reset.symValid = false ∧
  ∀ i, memRead State.reset i = Config.powerOnWord 0 i

/-! ## What each instruction does -/

/-- 40_node_words.md R67: the symbol is emitted; at the root the run ends, elsewhere NP returns to the root and STATE
stays. Nothing else changes. -/
def Obligations.LeafEmitsItsSymbol : Prop :=
  ∀ (x : Nat) (s : State),
    (s.np = 0 → exec (.leaf x) s = .next { s with out := s.out ++ [x], state := .done }) ∧
    (s.np ≠ 0 → exec (.leaf x) s = .next { s with out := s.out ++ [x], np := 0 })

/-- 40_node_words.md R68: with no bit, the normal end at the root and TRUNCATED below it; with one, it is consumed and
selects the child, 0 the left and 1 the right; an absent child faults NULL_CHILD with NP unchanged. -/
def Obligations.NodeTakesOneBitAndSelectsTheChild : Prop :=
  ∀ (l r : Nat) (s : State),
    (s.bits = [] → s.np = 0 → exec (.node l r) s = .next { s with state := .done }) ∧
    (s.bits = [] → s.np ≠ 0 → exec (.node l r) s = .next { s with state := .fault, cause := .truncated }) ∧
    (∀ rest, s.bits = false :: rest → l ≠ 0 → exec (.node l r) s = .next { s with bits := rest, np := l }) ∧
    (∀ rest, s.bits = true :: rest → r ≠ 0 → exec (.node l r) s = .next { s with bits := rest, np := r }) ∧
    (∀ rest, s.bits = false :: rest → l = 0 →
      exec (.node l r) s = .next { s with bits := rest, state := .fault, cause := .nullChild }) ∧
    (∀ rest, s.bits = true :: rest → r = 0 →
      exec (.node l r) s = .next { s with bits := rest, state := .fault, cause := .nullChild })

/-- 40_node_words.md R69: the word 0x00000000 is a placeholder; fetching it faults EMPTY_NODE with NP, the bits and the
symbols unchanged, even when there are no bits. -/
def Obligations.EmptyWordFaults : Prop :=
  (∀ c, decodeNode c 0x00000000#32 = .empty) ∧
  (∀ s : State, exec .empty s = .next { s with state := .fault, cause := .emptyNode }) ∧
  ∀ s : State, s.state = .run → s.np < s.cfg.nodeCount → memRead s s.np = 0x00000000#32 → s.EngineDue →
    step s = .next { s with pending := s.pending.tail, state := .fault, cause := .emptyNode }

/-- 40_node_words.md R70: a word that decodes as illegal faults ILLEGAL_NODE when it is fetched, with NP, the bits and
the symbols unchanged. -/
def Obligations.IllegalWordFaults : Prop :=
  (∀ (w : Word) (s : State), exec (.illegal w) s = .next { s with state := .fault, cause := .illegalNode }) ∧
  ∀ s : State, s.state = .run → s.np < s.cfg.nodeCount →
    decodeNode s.cfg (memRead s s.np) = .illegal (memRead s s.np) → s.EngineDue →
    step s = .next { s with pending := s.pending.tail, state := .fault, cause := .illegalNode }

/-- 41_host_commands.md R79: NOP changes nothing in every STATE, as the command and as the write of 0 to CTRL. -/
def Obligations.NopChangesNothing : Prop :=
  ∀ s : State, exec .nop s = .next s ∧ exec (.csrwr 0 0x00000000#32) s = .next s

/-- 41_host_commands.md R80: START begins a run at the root in IDLE and DONE and is refused in RUN and FAULT; as the
command and as the write of 1 to CTRL. -/
def Obligations.StartBeginsARunAtTheRoot : Prop :=
  ∀ (s : State) (i : Instr), i = .start ∨ i = .csrwr 0 0x00000001#32 →
    (s.state = .idle ∨ s.state = .done → exec i s = .next { s with np := 0, state := .run }) ∧
    (s.state = .run ∨ s.state = .fault → exec i s = .next { s with hostErr := true })

/-- 41_host_commands.md R81: CLEAR returns to IDLE in every STATE but RUN, where it is refused; as the command and as
the write of 2 to CTRL. -/
def Obligations.ClearAcknowledgesOutsideRun : Prop :=
  ∀ (s : State) (i : Instr), i = .clear ∨ i = .csrwr 0 0x00000002#32 →
    (s.state ≠ .run →
      exec i s = .next { s with state := .idle, cause := .none, np := 0, hostErr := false }) ∧
    (s.state = .run → exec i s = .next { s with hostErr := true })

/-- 41_host_commands.md R82: a reserved command is refused in every STATE: v = 3, or any of v[31:2] set; as the command
word and as the write to CTRL. -/
def Obligations.ReservedCommandsAreRefused : Prop :=
  ∀ (s : State) (v : Word), (v = 0x00000003#32 ∨ ∃ k, 2 ≤ k ∧ k < 32 ∧ v.getLsbD k = true) →
    decodeCommand v = .reservedCmd v ∧
    exec (.reservedCmd v) s = .next { s with hostErr := true } ∧
    exec (.csrwr 0 v) s = .next { s with hostErr := true }

/-- 41_host_commands.md R78: a write of any register but CTRL is refused; of CTRL, a value with any of v[31:2] set is
refused, and v[1:0] selects NOP, START, CLEAR or, for 3, refusal; so the write is the command its value is the word of. -/
def Obligations.CsrwrSelectsTheCommand : Prop :=
  ∀ (s : State) (n : Nat) (v : Word),
    (n ≠ 0 → exec (.csrwr n v) s = .next { s with hostErr := true }) ∧
    ((∃ k, 2 ≤ k ∧ k < 32 ∧ v.getLsbD k = true) → exec (.csrwr 0 v) s = .next { s with hostErr := true }) ∧
    exec (.csrwr 0 0x00000000#32) s = exec .nop s ∧ exec (.csrwr 0 0x00000001#32) s = exec .start s ∧
    exec (.csrwr 0 0x00000002#32) s = exec .clear s ∧
    exec (.csrwr 0 0x00000003#32) s = .next { s with hostErr := true } ∧
    exec (.csrwr 0 v) s = exec (decodeCommand v) s ∧ ∃ t, exec (.csrwr 0 v) s = .next t

/-- 41_host_commands.md R83: what a read of each register returns, STATUS field by field (10_state.md R28 to R31);
n ≥ 4 is refused and returns 0. -/
def Obligations.CsrrdReturnsTheRegister : Prop :=
  ∀ s : State,
    exec (.csrrd 0) s = .next { s with returned := s.returned ++ [0x00000000#32] } ∧
    (∃ v, exec (.csrrd 1) s = .next { s with returned := s.returned ++ [v] } ∧
      v.toNat = (if s.hostErr then 0x100 else 0) +
        0x10 * (match s.cause with
          | .none => 0
          | .truncated => 1
          | .emptyNode => 2
          | .nullChild => 3
          | .illegalNode => 4) +
        (match s.state with
          | .idle => 0
          | .run => 1
          | .done => 2
          | .fault => 3)) ∧
    (∃ v, exec (.csrrd 2) s = .next { s with returned := s.returned ++ [v] } ∧
      (s.cfg.Ok → s.np < s.cfg.nodeCount → v.toNat = s.np)) ∧
    (∃ v, exec (.csrrd 3) s = .next { s with returned := s.returned ++ [v] } ∧
      (s.cfg.Ok → v.toNat = 0x100 * s.cfg.idxW + s.cfg.symW)) ∧
    ∀ n, 4 ≤ n →
      exec (.csrrd n) s = .next { s with hostErr := true, returned := s.returned ++ [0x00000000#32] }

/-- 41_host_commands.md R85: LUTRD returns the whole word in every STATE, the same for an entry never written; out of
range it is refused and returns 0. -/
def Obligations.LutrdReturnsTheWord : Prop :=
  ∀ (s : State) (i : Nat),
    (i < s.cfg.nodeCount → exec (.lutrd i) s = .next { s with returned := s.returned ++ [memRead s i] }) ∧
    (s.cfg.nodeCount ≤ i →
      exec (.lutrd i) s = .next { s with hostErr := true, returned := s.returned ++ [0x00000000#32] })

/-- 41_host_commands.md R84: an accepted LUTWR stores the word, legal or not, at the index, changes no other entry and
nothing else; in RUN or out of range it is refused. -/
def Obligations.LutwrStoresTheWord : Prop :=
  ∀ (s : State) (i : Nat) (w : Word),
    (s.state ≠ .run → i < s.cfg.nodeCount →
      ∃ t, exec (.lutwr i w) s = .next t ∧ t = { s with lut := t.lut } ∧
        memRead t i = w ∧ ∀ a, a ≠ i → memRead t a = memRead s a) ∧
    (s.state = .run ∨ s.cfg.nodeCount ≤ i → exec (.lutwr i w) s = .next { s with hostErr := true })

/-- 20_memory.md R41 (a), R43: a LUTWR that was accepted is what the next LUTRD of that index returns and what the engine
executes when it is there. -/
def Obligations.AcceptedWriteIsSeenByReadAndFetch : Prop :=
  ∀ (s t : State) (i : Nat) (w : Word), s.state ≠ .run → i < s.cfg.nodeCount → exec (.lutwr i w) s = .next t →
    exec (.lutrd i) t = .next { t with returned := t.returned ++ [w] } ∧
    step { t with state := .run, np := i, pending := [] } =
      exec (decodeNode s.cfg w) { t with state := .run, np := i, pending := [] }

/-! ## Frames -/

/-- 40_node_words.md R66: what the node words leave unchanged. None writes the LUT (every entry reads as before, none
stores), HOSTERR, the parameters or the model's own fields; EMPTY and ILLEGAL leave NP, `bits` and `out`; LEAF leaves
CAUSE and `bits`; NODE leaves `out`. -/
def Obligations.NodeWordsFrame : Prop :=
  ∀ (i : Instr) (s t : State),
    (i = .empty ∨ (∃ x, i = .leaf x) ∨ (∃ l r, i = .node l r) ∨ ∃ w, i = .illegal w) → exec i s = .next t →
    (∀ a, memRead t a = memRead s a) ∧ t.lut = s.lut ∧ t.hostErr = s.hostErr ∧ t.cfg = s.cfg ∧
    t.powerOns = s.powerOns ∧ t.returned = s.returned ∧ t.pending = s.pending ∧
    ((i = .empty ∨ ∃ w, i = .illegal w) → t.np = s.np ∧ t.bits = s.bits ∧ t.out = s.out) ∧
    ((∃ x, i = .leaf x) → t.cause = s.cause ∧ t.bits = s.bits) ∧
    ((∃ l r, i = .node l r) → t.out = s.out)

/-- 41_host_commands.md R77 to R82: what the commands and CSRWR leave unchanged. None writes the LUT, `bits`, `out`, the
parameters or the model's own fields; NOP leaves all; a reserved command and a CSRWR of another register than CTRL
leave NP, STATE and CAUSE; START leaves CAUSE. -/
def Obligations.CommandsFrame : Prop :=
  ∀ (i : Instr) (s t : State),
    (i = .nop ∨ i = .start ∨ i = .clear ∨ (∃ v, i = .reservedCmd v) ∨ ∃ n v, i = .csrwr n v) → exec i s = .next t →
    (∀ a, memRead t a = memRead s a) ∧ t.lut = s.lut ∧ t.bits = s.bits ∧ t.out = s.out ∧ t.cfg = s.cfg ∧
    t.powerOns = s.powerOns ∧ t.returned = s.returned ∧ t.pending = s.pending ∧
    (i = .nop → t = s) ∧
    (i = .start → t.cause = s.cause ∧ (t.hostErr = s.hostErr ∨ t.hostErr = true)) ∧
    ((∃ v, i = .reservedCmd v) ∨ (∃ n v, i = .csrwr n v ∧ n ≠ 0) →
      t.np = s.np ∧ t.state = s.state ∧ t.cause = s.cause)

/-- 41_host_commands.md R83, R85: a host read changes nothing but what is returned, and HOSTERR exactly when it is
refused: CSRRD n with n ≥ 4, LUTRD i with i ≥ NODE_COUNT. -/
def Obligations.HostReadsFrame : Prop :=
  ∀ (i : Instr) (s t : State), ((∃ n, i = .csrrd n) ∨ ∃ n, i = .lutrd n) → exec i s = .next t →
    (∀ a, memRead t a = memRead s a) ∧ SameRun s t ∧ t.pending = s.pending ∧
    (∀ n, i = .csrrd n → (n < 4 → t.hostErr = s.hostErr) ∧ (4 ≤ n → t.hostErr = true)) ∧
    (∀ n, i = .lutrd n → (n < s.cfg.nodeCount → t.hostErr = s.hostErr) ∧ (s.cfg.nodeCount ≤ n → t.hostErr = true)) ∧
    ∃ v, t.returned = s.returned ++ [v]

/-! ## The whole machine -/

/-- The invariant holds of `State.reset`, the model's state right after the first power-on. Its default parameters (log 3)
and its empty sink (log 5) are the model's choices, and two of the invariant's clauses rest on them. -/
def Obligations.InvariantHoldsAtReset : Prop := State.reset.Inv

/-- Every step of every agent keeps the invariant: the LUT's canonical form and range, NP an index and 0 at rest
(10_state.md R14, 40_node_words.md R71), CAUSE non-zero exactly in FAULT (R16), symbols of SYM_W bits (R25). -/
def Obligations.EveryStepKeepsTheInvariant : Prop :=
  ∀ s t : State, s.Inv → step s = .next t → t.Inv

/-- 10_state.md R14, 40_node_words.md R73: every way NP changes. -/
def Obligations.NodePointerChangesOnlyAsListed : Prop :=
  ∀ s t : State, step s = .next t → t.np ≠ s.np →
    (s.EngineDue ∧ s.state = .run ∧ s.np ≠ 0 ∧ t.np = 0 ∧ ∃ x, nodeAt s s.np = .leaf x) ∨
    (s.EngineDue ∧ s.state = .run ∧ t.np ≠ 0 ∧
      ∃ l r, nodeAt s s.np = .node l r ∧
        (s.bits = false :: t.bits ∧ t.np = l ∨ s.bits = true :: t.bits ∧ t.np = r)) ∨
    (s.StartDue ∧ (s.state = .idle ∨ s.state = .done) ∧ t.np = 0) ∨
    (s.ClearDue ∧ s.state ≠ .run ∧ t.np = 0) ∨
    (s.ResetDue ∧ t.np = 0)

/-- 20_memory.md R41, R47, 70_reset_and_hazards.md R131: an entry's word changes only by an accepted LUTWR of that
index, outside RUN, to the word written, or by power-on. -/
def Obligations.LutEntryChangesOnlyByWriteOrPowerOn : Prop :=
  ∀ (s t : State) (i : Nat), step s = .next t → memRead t i ≠ memRead s i →
    (s.state ≠ .run ∧ s.HostDue (.lutwr i (memRead t i))) ∨ ∃ es, s.pending = .powerOn :: es

/-- 40_node_words.md R71: a run ends with DONE in exactly two ways, and after either NP and CAUSE are 0. -/
def Obligations.RunEndsDoneInExactlyTwoWays : Prop :=
  ∀ s t : State, s.Inv → s.state = .run → s.EngineDue → step s = .next t →
    (t.state = .done ↔
      s.np = 0 ∧ ((∃ l r, nodeAt s 0 = .node l r ∧ s.bits = []) ∨ ∃ x, nodeAt s 0 = .leaf x)) ∧
    (t.state = .done → t.np = 0 ∧ t.cause = .none)

/-- 60_exceptions.md R111, R119: which fault an engine step raises, for each cause exactly when. -/
def Obligations.FaultCauseFollowsTheOrderOfTests : Prop :=
  ∀ s t : State, s.Inv → s.state = .run → s.EngineDue → step s = .next t →
    (t.cause = .illegalNode ↔ ∃ w, nodeAt s s.np = .illegal w) ∧
    (t.cause = .emptyNode ↔ nodeAt s s.np = .empty) ∧
    (t.cause = .truncated ↔ (∃ l r, nodeAt s s.np = .node l r) ∧ s.bits = [] ∧ s.np ≠ 0) ∧
    (t.cause = .nullChild ↔ ∃ l r, nodeAt s s.np = .node l r ∧
      ((∃ rest, s.bits = false :: rest) ∧ l = 0 ∨ (∃ rest, s.bits = true :: rest) ∧ r = 0)) ∧
    (t.state = .fault ↔ t.cause ≠ .none)

/-- 60_exceptions.md R117, R116: a fault writes STATE and CAUSE; NP, the LUT, HOSTERR and `out` are untouched, and the
only bit consumed is NULL_CHILD's. -/
def Obligations.FaultWritesOnlyStateAndCause : Prop :=
  ∀ s t : State, s.Inv → s.state = .run → s.EngineDue → step s = .next t → t.state = .fault →
    t.np = s.np ∧ t.lut = s.lut ∧ (∀ a, memRead t a = memRead s a) ∧ t.hostErr = s.hostErr ∧ t.out = s.out ∧
    t.cause ≠ .none ∧
    (t.cause ≠ .nullChild → t.bits = s.bits) ∧
    (t.cause = .nullChild → ∃ b, s.bits = b :: t.bits)

/-- 60_exceptions.md R121: the only ways out of FAULT are CLEAR and reset; either leaves IDLE with CAUSE, NP and HOSTERR
0. -/
def Obligations.FaultIsLeftOnlyByClearOrReset : Prop :=
  ∀ s t : State, s.state = .fault → step s = .next t → t.state ≠ .fault →
    (s.ClearDue ∨ s.ResetDue) ∧ t.state = .idle ∧ t.cause = .none ∧ t.np = 0 ∧ t.hostErr = false

/-- 41_host_commands.md R87, 70_reset_and_hazards.md R132, R139: RUN is left only by the engine's own step or by a
reset. -/
def Obligations.RunIsLeftOnlyByTheEngineOrReset : Prop :=
  ∀ s t : State, s.state = .run → step s = .next t → t.state ≠ .run →
    (s.EngineDue ∧ (t.state = .done ∨ t.state = .fault)) ∨ (s.ResetDue ∧ t.state = .idle)

/-- 41_host_commands.md R86: HOSTERR is set by exactly these events, cleared by an accepted CLEAR and by reset, and by
nothing else. -/
def Obligations.HostErrIsSetAndClearedByExactlyThese : Prop :=
  ∀ s t : State, step s = .next t →
    (s.hostErr = false → (t.hostErr = true ↔
      (∃ n v, s.HostDue (.csrwr n v) ∧ n ≠ 0) ∨
      (∃ v, (s.HostDue (.csrwr 0 v) ∨ s.HostDue (.reservedCmd v)) ∧ 3 ≤ v.toNat) ∨
      (s.StartDue ∧ (s.state = .run ∨ s.state = .fault)) ∨
      (s.ClearDue ∧ s.state = .run) ∨
      (∃ n, s.HostDue (.csrrd n) ∧ 4 ≤ n) ∨
      (∃ i w, s.HostDue (.lutwr i w) ∧ s.state = .run) ∨
      (∃ i w, s.HostDue (.lutwr i w) ∧ s.cfg.nodeCount ≤ i) ∨
      (∃ i, s.HostDue (.lutrd i) ∧ s.cfg.nodeCount ≤ i) ∨
      (∃ b es, s.pending = .bus b :: es ∧ s.cfg.hostBinding = .defaultBus ∧
        (b.width ≠ 32 ∨ b.offset % 4 ≠ 0 ∨ 0x40000 ≤ b.offset)))) ∧
    (s.hostErr = true → (t.hostErr = false ↔ (s.ClearDue ∧ s.state ≠ .run) ∨ s.ResetDue))

/-- 41_host_commands.md R77, R87: a host operation in RUN answers a next state and changes nothing of the run. -/
def Obligations.HostOperationLeavesTheRunAlone : Prop :=
  ∀ (s : State) (r : Raw) (es : List Event), s.state = .run → r.isHost = true → s.pending = eventOf r :: es →
    ∃ t, step s = .next t ∧ SameRun s t ∧ t.pending = es

/-- 41_host_commands.md R87: while the run lasts, host operations interleaved with the engine's steps in any way cannot
change it: the engine's steps alone and the interleaving reach the same run, and so does the engine's next step, which
may be the one that ends the run. -/
def Obligations.InterleavedHostOperationsCannotChangeARun : Prop :=
  ∀ (s u : State) (es : List Event),
    (∀ e ∈ es, e = .engine ∨ ∃ r : Raw, r.isHost = true ∧ e = eventOf r) →
    s.state = .run →
    steps (es.filter fun e => e = .engine).length { s with pending := es.filter fun e => e = .engine } = .next u →
    u.state = .run →
    ∃ t, steps es.length { s with pending := es } = .next t ∧ SameRun u t ∧ t.pending = [] ∧
      ∀ u', step u = .next u' → ∃ t', step t = .next t' ∧ SameRun u' t'

/-- 40_node_words.md R75: a run with n bits ends within 2n + 1 engine steps, emits at most max(n, 1) symbols and consumes
a front part of its bits, whatever the LUT holds. -/
def Obligations.RunEndsWithinTwiceItsBitsPlusOne : Prop :=
  ∀ s : State, s.Inv → s.state = .run → s.np = 0 → s.pending = [] →
    ∃ k t, k ≤ 2 * s.bits.length + 1 ∧ steps k s = .next t ∧ t.Ended ∧
      (∃ taken, s.bits = taken ++ t.bits) ∧
      ∃ syms, t.out = s.out ++ syms ∧ syms.length ≤ max s.bits.length 1

/-- 30_encoding.md R61: two layouts of one tree decode alike: after every number of steps the symbols, the bits left,
STATE and CAUSE agree, and the node pointers name corresponding nodes. -/
def Obligations.LayoutOfTheTreeDoesNotMatter : Prop :=
  ∀ (R : Nat → Nat → Prop) (s u : State), s.Inv → u.Inv → SameShape R (nodeAt s) (nodeAt u) →
    s.state = .run → u.state = .run → s.np = 0 → u.np = 0 → s.pending = [] → u.pending = [] → s.bits = u.bits →
    ∀ k, ∃ s' u', steps k s = .next s' ∧ steps k u = .next u' ∧
      s'.state = u'.state ∧ s'.cause = u'.cause ∧ s'.bits = u'.bits ∧ R s'.np u'.np ∧
      ∃ syms, s'.out = s.out ++ syms ∧ u'.out = u.out ++ syms

/-- 40_node_words.md R76, the identity: a stream that is the concatenation of Codes of leaves decodes to their symbols,
all bits are consumed and the run ends DONE at the root. (That the rest of the LUT is a tree is not needed.) -/
def Obligations.DecodingReproducesTheSymbols : Prop :=
  ∀ (s : State) (msg : List (Nat × Code)), s.Inv → s.state = .run → s.np = 0 → s.pending = [] →
    (∃ l r, nodeAt s 0 = .node l r) → (∀ m ∈ msg, LeafCode (nodeAt s) m.1 m.2) →
    s.bits = msg.flatMap (fun m => m.2) →
    ∃ k t, steps k s = .next t ∧ t.state = .done ∧ t.out = s.out ++ msg.map (fun m => m.1) ∧ t.bits = [] ∧ t.np = 0

/-- 40_node_words.md R76: a stream that ends strictly inside a Code gives the symbols of the complete Codes before it, no
other, and then TRUNCATED, with NP at the node where the bits ran out (60_exceptions.md R112). -/
def Obligations.TruncatedStreamFaultsWithoutASymbol : Prop :=
  ∀ (s : State) (msg : List (Nat × Code)) (x : Nat) (front rest : Code),
    s.Inv → s.state = .run → s.np = 0 → s.pending = [] →
    (∀ m ∈ msg, LeafCode (nodeAt s) m.1 m.2) →
    LeafCode (nodeAt s) x (front ++ rest) → front ≠ [] → rest ≠ [] →
    s.bits = msg.flatMap (fun m => m.2) ++ front →
    ∃ k t, steps k s = .next t ∧ t.state = .fault ∧ t.cause = .truncated ∧
      t.out = s.out ++ msg.map (fun m => m.1) ∧ t.bits = [] ∧ HasCode (nodeAt s) t.np front

/-- 40_node_words.md R76: no Code of a leaf is a front part of another leaf's Code ("guaranteed by the tree shape, not
enforced separately"): if one is, the two are the same Code of the same symbol. -/
def Obligations.LeafCodesArePrefixFree : Prop :=
  ∀ (t : Nat → Instr) (x y : Nat) (a b : Code), LeafCode t x a → LeafCode t y b → a <+: b → a = b ∧ x = y

/-- 30_encoding.md R60: in a PartialTree every reachable index has exactly one Code. -/
def Obligations.ReachableIndexHasExactlyOneCode : Prop :=
  ∀ t : Nat → Instr, PartialTree t → ∀ p, Reach t p →
    ∃ code, HasCode t p code ∧ ∀ code', HasCode t p code' → code' = code

/-- 40_node_words.md R72: when LUT[0] is a LEAF a run is exactly one step of the engine, which consults no bit. -/
def Obligations.SingleLeafRunIsOneStep : Prop :=
  ∀ (s : State) (x : Nat), s.state = .run → s.np = 0 → nodeAt s 0 = .leaf x → s.EngineDue →
    step s = .next { s with pending := s.pending.tail, out := s.out ++ [x], state := .done }

/-- 41_host_commands.md R90, 70_reset_and_hazards.md R143: with a LEAF at the root, n STARTs, each followed by the
engine's step, give the symbol n times, consume no bit and end in DONE. -/
def Obligations.RepeatedStartsRepeatTheSymbol : Prop :=
  ∀ (n : Nat) (s : State) (x : Nat), s.state = .idle ∨ s.state = .done → nodeAt s 0 = .leaf x →
    s.pending = (List.replicate n [Event.command 0x00000001#32, Event.engine]).flatten →
    ∃ t, steps (2 * n) s = .next t ∧ t.out = s.out ++ List.replicate n x ∧ t.bits = s.bits ∧
      t.hostErr = s.hostErr ∧ (0 < n → t.state = .done)

/-- 60_exceptions.md R122, 10_state.md R25: the only step that adds to `out` is the engine's at a LEAF, which adds that
leaf's symbol; nothing is ever taken back. -/
def Obligations.OnlyLeavesEmit : Prop :=
  ∀ s t : State, step s = .next t →
    t.out = s.out ∨
      (s.EngineDue ∧ s.state = .run ∧ t.bits = s.bits ∧ ∃ x, nodeAt s s.np = .leaf x ∧ t.out = s.out ++ [x])

/-- 10_state.md R21, R23, 20_memory.md R49: the block takes bits only in the engine's NODE steps, one at a time and in
order; else only the environment changes the stream (log 7). -/
def Obligations.OnlyNodesTakeBits : Prop :=
  ∀ s t : State, step s = .next t →
    t.bits = s.bits ∨
      (s.EngineDue ∧ s.state = .run ∧ t.out = s.out ∧
        ∃ l r b, nodeAt s s.np = .node l r ∧ s.bits = b :: t.bits) ∨
      ∃ es, s.pending = .stream t.bits :: es

/-- 10_state.md R24, R26: `bs_take` is asserted in exactly the steps that take a bit, which is `bs_bit`; `sym_valid` in
exactly the steps that emit a symbol, which is `sym_data`; `bs_has` says whether a bit is there. -/
def Obligations.PortSignalsShowTheStep : Prop :=
  ∀ s t : State, s.Inv → (∀ bs es, s.pending ≠ .stream bs :: es) → step s = .next t →
    (s.bsHasSignal = true ↔ s.bits ≠ []) ∧
    (s.bsTakeSignal = true ↔ t.bits ≠ s.bits) ∧
    (s.bsTakeSignal = true → ∃ b, s.bsBit = some b ∧ s.bits = b :: t.bits) ∧
    (s.symValid = true ↔ t.out ≠ s.out) ∧
    (∀ x, s.symData = some x → t.out = s.out ++ [x])

/-- 10_state.md R32: the level outputs mirror STATE. -/
def Obligations.LevelOutputsMirrorState : Prop :=
  ∀ s : State, (s.busy = true ↔ s.state = .run) ∧ (s.doneOut = true ↔ s.state = .done) ∧
    (s.faultOut = true ↔ s.state = .fault)

/-! ## The toolchain -/

/-- 45_toolchain.md R99, its three cases, on any image: a Code that goes on past a leaf, one that ends at a node, one
that ends at a leaf is rejected. -/
def Obligations.ConflictingCodesAreRejected : Prop :=
  ∀ (c : Config) (img : Image) (s : Int) (code : Code) (p : Nat), 0 ≤ s → s < (2 : Int) ^ c.symW →
    (∀ front b rest x, code = front ++ b :: rest → HasCode (img.nodeAt c) p front → img.nodeAt c p = .leaf x →
      insertPair c img s code = .error .codeConflict) ∧
    (HasCode (img.nodeAt c) p code → (∃ l r, img.nodeAt c p = .node l r) →
      insertPair c img s code = .error .codeConflict) ∧
    (HasCode (img.nodeAt c) p code → (∃ x, img.nodeAt c p = .leaf x) →
      insertPair c img s code = .error .codeConflict)

/-- 45_toolchain.md R100: a symbol that does not fit the field, −1 among them, is refused. -/
def Obligations.SymbolOutOfRangeIsRejected : Prop :=
  ∀ (c : Config) (img : Image) (s : Int) (code : Code), (s < 0 ∨ (2 : Int) ^ c.symW ≤ s) →
    insertPair c img s code = .error .symbolRange ∧ insertPair c img (-1) code = .error .symbolRange

/-- 45_toolchain.md R109, R104, R98: a tree that fits the LUT and whose symbols fit has a canonical image, and
serializing that image gives the tree's own pairs in their order. -/
def Obligations.CanonicalImageSerializesToItsTree : Prop :=
  ∀ (c : Config) (t : CodeTree), c.Ok → (∀ sc ∈ t.pairs, sc.1 < 2 ^ c.symW) → t.size ≤ c.nodeCount →
    ∃ img, canonicalImage c t = .ok img ∧ serialize c img = .ok t.pairs

/-- 45_toolchain.md R92 to R96: the reader reads what the Serializer writes: the text of any pairs deserializes as the
pairs themselves. -/
def Obligations.TextOfPairsReadsBack : Prop :=
  ∀ (c : Config) (pairs : List (Nat × Code)),
    deserializeText c (writePairs pairs) = deserialize c (pairs.map fun sc => ((sc.1 : Int), sc.2))

/-- 45_toolchain.md R106: the Builder fails exactly when no symbol has a positive count; else its tree holds exactly the
symbols with a positive count. The spec's table is a mapping; that of a list in which a symbol stands twice each entry
gives a leaf of its own is the model's choice (log 17). -/
def Obligations.BuilderHoldsExactlyTheAlphabet : Prop :=
  ∀ freqs : FreqTable,
    (build freqs = .error .emptyAlphabet ↔ ∀ e ∈ freqs, e.2 = 0) ∧
    ((∃ e ∈ freqs, e.2 ≠ 0) → ∃ t, build freqs = .ok t ∧
      (t.pairs.map fun sc => sc.1).Perm ((freqs.filter fun e => 0 < e.2).map fun e => e.1))
end

