-- ==== Sys2Proof/Laws/Decode.lean ====
section
/-! SUPPORT. The laws of the decoder: the cases of `DecodeWord`, the ranges of the fields it reads, and the encoding
functions as numbers. -/

namespace Sys2Proof

theorem wellFormed_leaf {c : Config} {s : Nat} : WellFormed c (.leaf s) = true ↔ s < 2 ^ c.symW := decide_eq_true_iff

theorem wellFormed_node {c : Config} {l r : Nat} :
    WellFormed c (.node l r) = true ↔ l < 2 ^ c.idxW ∧ r < 2 ^ c.idxW := by
  rw [WellFormed, Bool.and_eq_true, decide_eq_true_iff, decide_eq_true_iff]

theorem wellFormed_reservedCmd {c : Config} {v : Word} : WellFormed c (.reservedCmd v) = true ↔ 3 ≤ v.toNat :=
  decide_eq_true_iff

theorem slice_lt (w : Word) (hi lo : Nat) : slice w hi lo < 2 ^ (hi + 1 - lo) := Nat.mod_lt _ (by positivity)

theorem kindOf_eq (w : Word) : kindOf w = w.toNat / 2 ^ 30 := by
  have h : w.toNat / 2 ^ 30 < 4 := by have := w.isLt; omega
  simp only [kindOf, slice, Nat.shiftRight_eq_div_pow]
  omega

theorem slice_zero (w : Word) (n : Nat) (h : 1 ≤ n) : slice w (n - 1) 0 = w.toNat % 2 ^ n := by
  have : n - 1 + 1 - 0 = n := by omega
  simp [slice, this]

/-- The reserved bits 29:n of a word are 0 exactly when its low 30 bits are below 2^n. -/
theorem slice_29_eq_zero (w : Word) {n : Nat} (h : n ≤ 30) : slice w 29 n = 0 ↔ w.toNat % 2 ^ 30 < 2 ^ n := by
  have e : 2 ^ 30 = 2 ^ n * 2 ^ (30 - n) := by rw [← pow_add]; congr 1; omega
  simp only [slice, Nat.shiftRight_eq_div_pow]
  have hd : w.toNat / 2 ^ n % 2 ^ (29 + 1 - n) = w.toNat % 2 ^ 30 / 2 ^ n := by
    rw [show 29 + 1 - n = 30 - n by omega, e, Nat.mod_mul_right_div_self]
  rw [hd, Nat.div_eq_zero_iff]
  constructor
  · rintro (h | h)
    · exact absurd h (by positivity)
    · exact h
  · exact .inr

/-- The four cases of `DecodeWord`, with what each says of the word (30_encoding.md R54). -/
theorem decodeNode_cases (c : Config) (w : Word) :
    (w = 0 ∧ decodeNode c w = .empty) ∨
    (w ≠ 0 ∧ kindOf w = 1 ∧ slice w 29 c.symW = 0 ∧ decodeNode c w = .leaf (slice w (c.symW - 1) 0)) ∨
    (w ≠ 0 ∧ kindOf w = 2 ∧ slice w 29 (2 * c.idxW) = 0 ∧
      decodeNode c w = .node (slice w (2 * c.idxW - 1) c.idxW) (slice w (c.idxW - 1) 0)) ∨
    (w ≠ 0 ∧ ¬(kindOf w = 1 ∧ slice w 29 c.symW = 0) ∧ ¬(kindOf w = 2 ∧ slice w 29 (2 * c.idxW) = 0) ∧
      decodeNode c w = .illegal w) := by
  unfold decodeNode
  by_cases h0 : w = 0x00000000#32
  · exact .inl ⟨h0, by simp [h0]⟩
  by_cases h1 : kindOf w = 1 ∧ slice w 29 c.symW = 0
  · exact .inr (.inl ⟨h0, h1.1, h1.2, by simp [h0, h1]⟩)
  by_cases h2 : kindOf w = 2 ∧ slice w 29 (2 * c.idxW) = 0
  · exact .inr (.inr (.inl ⟨h0, h2.1, h2.2, by simp [h0, h2]⟩))
  · exact .inr (.inr (.inr ⟨h0, h1, h2, by simp [h0, h1, h2]⟩))

/-- A LEAF's symbol has SYM_W bits (10_state.md R25). -/
theorem decodeNode_leaf_lt {c : Config} (hc : c.Ok) {w : Word} {x : Nat} (h : decodeNode c w = .leaf x) :
    x < 2 ^ c.symW := by
  have := slice_lt w (c.symW - 1) 0
  rw [show c.symW - 1 + 1 - 0 = c.symW by have := hc.1; omega] at this
  rcases decodeNode_cases c w with ⟨-, e⟩ | ⟨-, -, -, e⟩ | ⟨-, -, -, e⟩ | ⟨-, -, -, e⟩ <;> rw [e] at h <;> cases h
  exact this

/-- A NODE's children are indices that exist (20_memory.md R36). -/
theorem decodeNode_node_lt {c : Config} (hc : c.Ok) {w : Word} {l r : Nat} (h : decodeNode c w = .node l r) :
    l < c.nodeCount ∧ r < c.nodeCount := by
  have hl := slice_lt w (2 * c.idxW - 1) c.idxW
  have hr := slice_lt w (c.idxW - 1) 0
  have := hc.2.2.1
  rw [show 2 * c.idxW - 1 + 1 - c.idxW = c.idxW by omega] at hl
  rw [show c.idxW - 1 + 1 - 0 = c.idxW by omega] at hr
  rcases decodeNode_cases c w with ⟨-, e⟩ | ⟨-, -, -, e⟩ | ⟨-, -, -, e⟩ | ⟨-, -, -, e⟩ <;> rw [e] at h <;> cases h
  exact ⟨hl, hr⟩

/-- A node word decodes to one of the four node instructions, never to a host operation. -/
theorem decodeNode_shape (c : Config) (w : Word) :
    decodeNode c w = .empty ∨ (∃ x, decodeNode c w = .leaf x) ∨ (∃ l r, decodeNode c w = .node l r) ∨
      decodeNode c w = .illegal w := by
  rcases decodeNode_cases c w with ⟨-, e⟩ | ⟨-, -, -, e⟩ | ⟨-, -, -, e⟩ | ⟨-, -, -, e⟩
  · exact .inl e
  · exact .inr (.inl ⟨_, e⟩)
  · exact .inr (.inr (.inl ⟨_, _, e⟩))
  · exact .inr (.inr (.inr e))

/-- `EncodeLeaf(s)` as a number (30_encoding.md R65). -/
theorem encodeLeaf_toNat {s : Nat} (h : s < 2 ^ 30) : (encodeLeaf s).toNat = 2 ^ 30 + s := by
  simp only [encodeLeaf, BitVec.toNat_or, BitVec.toNat_shiftLeft, BitVec.toNat_ofNat]
  rw [show (1 % 2 ^ 32) <<< 30 % 2 ^ 32 = 2 ^ 30 * 1 by rfl, Nat.mod_eq_of_lt (by omega : s < 2 ^ 32),
    ← Nat.two_pow_add_eq_or_of_lt h, Nat.mul_one]

/-- `EncodeNode(l, r)` as a number (30_encoding.md R65). -/
theorem encodeNode_toNat {c : Config} (hc : c.Ok) {l r : Nat} (hl : l < 2 ^ c.idxW) (hr : r < 2 ^ c.idxW) :
    (encodeNode c l r).toNat = 2 ^ 31 + 2 ^ c.idxW * l + r := by
  obtain ⟨-, -, h1, h15⟩ := hc
  have hp : 2 ^ c.idxW ≤ 2 ^ 15 := Nat.pow_le_pow_right (by omega) h15
  have hlr : 2 ^ c.idxW * l + r < 2 ^ 30 := by
    have : 2 ^ c.idxW * l + r < 2 ^ c.idxW * 2 ^ c.idxW := by nlinarith
    have : 2 ^ c.idxW * 2 ^ c.idxW ≤ 2 ^ 15 * 2 ^ 15 := Nat.mul_le_mul hp hp
    omega
  simp only [encodeNode, BitVec.toNat_or, BitVec.toNat_shiftLeft, BitVec.toNat_ofNat]
  rw [show (2 % 2 ^ 32) <<< 30 % 2 ^ 32 = 2 ^ 31 * 1 by rfl, Nat.mod_eq_of_lt (by omega : l < 2 ^ 32),
    Nat.mod_eq_of_lt (by omega : r < 2 ^ 32), Nat.shiftLeft_eq,
    Nat.mod_eq_of_lt (by rw [mul_comm]; omega : l * 2 ^ c.idxW < 2 ^ 32), Nat.or_assoc, mul_comm l,
    ← Nat.two_pow_add_eq_or_of_lt hr, ← Nat.two_pow_add_eq_or_of_lt (by omega : 2 ^ c.idxW * l + r < 2 ^ 31)]
  omega

end Sys2Proof
end

