-- ==== Sys2Proof/Laws/State.lean ====
section
/-! SUPPORT. One lemma per field for each operation of Machine/Ops.lean, true by rfl, so that no later proof unfolds a
record update. -/

namespace Sys2Proof.Machine

@[simp] theorem memWrite_cfg (i : Nat) (w : Word) (s : State) : (memWrite i w s).cfg = s.cfg := rfl
@[simp] theorem memWrite_lut (i : Nat) (w : Word) (s : State) : (memWrite i w s).lut = Memory.write s.lut i w := rfl
@[simp] theorem memWrite_powerOns (i : Nat) (w : Word) (s : State) : (memWrite i w s).powerOns = s.powerOns := rfl
@[simp] theorem memWrite_np (i : Nat) (w : Word) (s : State) : (memWrite i w s).np = s.np := rfl
@[simp] theorem memWrite_state (i : Nat) (w : Word) (s : State) : (memWrite i w s).state = s.state := rfl
@[simp] theorem memWrite_cause (i : Nat) (w : Word) (s : State) : (memWrite i w s).cause = s.cause := rfl
@[simp] theorem memWrite_hostErr (i : Nat) (w : Word) (s : State) : (memWrite i w s).hostErr = s.hostErr := rfl
@[simp] theorem memWrite_bits (i : Nat) (w : Word) (s : State) : (memWrite i w s).bits = s.bits := rfl
@[simp] theorem memWrite_out (i : Nat) (w : Word) (s : State) : (memWrite i w s).out = s.out := rfl
@[simp] theorem memWrite_returned (i : Nat) (w : Word) (s : State) : (memWrite i w s).returned = s.returned := rfl
@[simp] theorem memWrite_pending (i : Nat) (w : Word) (s : State) : (memWrite i w s).pending = s.pending := rfl

@[simp] theorem symOut_cfg (x : Nat) (s : State) : (symOut x s).cfg = s.cfg := rfl
@[simp] theorem symOut_lut (x : Nat) (s : State) : (symOut x s).lut = s.lut := rfl
@[simp] theorem symOut_powerOns (x : Nat) (s : State) : (symOut x s).powerOns = s.powerOns := rfl
@[simp] theorem symOut_np (x : Nat) (s : State) : (symOut x s).np = s.np := rfl
@[simp] theorem symOut_state (x : Nat) (s : State) : (symOut x s).state = s.state := rfl
@[simp] theorem symOut_cause (x : Nat) (s : State) : (symOut x s).cause = s.cause := rfl
@[simp] theorem symOut_hostErr (x : Nat) (s : State) : (symOut x s).hostErr = s.hostErr := rfl
@[simp] theorem symOut_bits (x : Nat) (s : State) : (symOut x s).bits = s.bits := rfl
@[simp] theorem symOut_out (x : Nat) (s : State) : (symOut x s).out = s.out ++ [x] := rfl
@[simp] theorem symOut_returned (x : Nat) (s : State) : (symOut x s).returned = s.returned := rfl
@[simp] theorem symOut_pending (x : Nat) (s : State) : (symOut x s).pending = s.pending := rfl

@[simp] theorem moveTo_cfg (i : Nat) (s : State) : (moveTo i s).cfg = s.cfg := rfl
@[simp] theorem moveTo_lut (i : Nat) (s : State) : (moveTo i s).lut = s.lut := rfl
@[simp] theorem moveTo_powerOns (i : Nat) (s : State) : (moveTo i s).powerOns = s.powerOns := rfl
@[simp] theorem moveTo_np (i : Nat) (s : State) : (moveTo i s).np = i := rfl
@[simp] theorem moveTo_state (i : Nat) (s : State) : (moveTo i s).state = s.state := rfl
@[simp] theorem moveTo_cause (i : Nat) (s : State) : (moveTo i s).cause = s.cause := rfl
@[simp] theorem moveTo_hostErr (i : Nat) (s : State) : (moveTo i s).hostErr = s.hostErr := rfl
@[simp] theorem moveTo_bits (i : Nat) (s : State) : (moveTo i s).bits = s.bits := rfl
@[simp] theorem moveTo_out (i : Nat) (s : State) : (moveTo i s).out = s.out := rfl
@[simp] theorem moveTo_returned (i : Nat) (s : State) : (moveTo i s).returned = s.returned := rfl
@[simp] theorem moveTo_pending (i : Nat) (s : State) : (moveTo i s).pending = s.pending := rfl

@[simp] theorem raiseFault_cfg (c : Cause) (s : State) : (raiseFault c s).cfg = s.cfg := rfl
@[simp] theorem raiseFault_lut (c : Cause) (s : State) : (raiseFault c s).lut = s.lut := rfl
@[simp] theorem raiseFault_powerOns (c : Cause) (s : State) : (raiseFault c s).powerOns = s.powerOns := rfl
@[simp] theorem raiseFault_np (c : Cause) (s : State) : (raiseFault c s).np = s.np := rfl
@[simp] theorem raiseFault_state (c : Cause) (s : State) : (raiseFault c s).state = .fault := rfl
@[simp] theorem raiseFault_cause (c : Cause) (s : State) : (raiseFault c s).cause = c := rfl
@[simp] theorem raiseFault_hostErr (c : Cause) (s : State) : (raiseFault c s).hostErr = s.hostErr := rfl
@[simp] theorem raiseFault_bits (c : Cause) (s : State) : (raiseFault c s).bits = s.bits := rfl
@[simp] theorem raiseFault_out (c : Cause) (s : State) : (raiseFault c s).out = s.out := rfl
@[simp] theorem raiseFault_returned (c : Cause) (s : State) : (raiseFault c s).returned = s.returned := rfl
@[simp] theorem raiseFault_pending (c : Cause) (s : State) : (raiseFault c s).pending = s.pending := rfl

@[simp] theorem acknowledge_cfg (s : State) : (acknowledge s).cfg = s.cfg := rfl
@[simp] theorem acknowledge_lut (s : State) : (acknowledge s).lut = s.lut := rfl
@[simp] theorem acknowledge_powerOns (s : State) : (acknowledge s).powerOns = s.powerOns := rfl
@[simp] theorem acknowledge_np (s : State) : (acknowledge s).np = 0 := rfl
@[simp] theorem acknowledge_state (s : State) : (acknowledge s).state = .idle := rfl
@[simp] theorem acknowledge_cause (s : State) : (acknowledge s).cause = .none := rfl
@[simp] theorem acknowledge_hostErr (s : State) : (acknowledge s).hostErr = false := rfl
@[simp] theorem acknowledge_bits (s : State) : (acknowledge s).bits = s.bits := rfl
@[simp] theorem acknowledge_out (s : State) : (acknowledge s).out = s.out := rfl
@[simp] theorem acknowledge_returned (s : State) : (acknowledge s).returned = s.returned := rfl
@[simp] theorem acknowledge_pending (s : State) : (acknowledge s).pending = s.pending := rfl

@[simp] theorem endRun_cfg (s : State) : (endRun s).cfg = s.cfg := rfl
@[simp] theorem endRun_lut (s : State) : (endRun s).lut = s.lut := rfl
@[simp] theorem endRun_powerOns (s : State) : (endRun s).powerOns = s.powerOns := rfl
@[simp] theorem endRun_np (s : State) : (endRun s).np = s.np := rfl
@[simp] theorem endRun_state (s : State) : (endRun s).state = .done := rfl
@[simp] theorem endRun_cause (s : State) : (endRun s).cause = s.cause := rfl
@[simp] theorem endRun_hostErr (s : State) : (endRun s).hostErr = s.hostErr := rfl
@[simp] theorem endRun_bits (s : State) : (endRun s).bits = s.bits := rfl
@[simp] theorem endRun_out (s : State) : (endRun s).out = s.out := rfl
@[simp] theorem endRun_returned (s : State) : (endRun s).returned = s.returned := rfl
@[simp] theorem endRun_pending (s : State) : (endRun s).pending = s.pending := rfl

@[simp] theorem beginRun_cfg (s : State) : (beginRun s).cfg = s.cfg := rfl
@[simp] theorem beginRun_lut (s : State) : (beginRun s).lut = s.lut := rfl
@[simp] theorem beginRun_powerOns (s : State) : (beginRun s).powerOns = s.powerOns := rfl
@[simp] theorem beginRun_np (s : State) : (beginRun s).np = 0 := rfl
@[simp] theorem beginRun_state (s : State) : (beginRun s).state = .run := rfl
@[simp] theorem beginRun_cause (s : State) : (beginRun s).cause = s.cause := rfl
@[simp] theorem beginRun_hostErr (s : State) : (beginRun s).hostErr = s.hostErr := rfl
@[simp] theorem beginRun_bits (s : State) : (beginRun s).bits = s.bits := rfl
@[simp] theorem beginRun_out (s : State) : (beginRun s).out = s.out := rfl
@[simp] theorem beginRun_returned (s : State) : (beginRun s).returned = s.returned := rfl
@[simp] theorem beginRun_pending (s : State) : (beginRun s).pending = s.pending := rfl

@[simp] theorem refuseOp_cfg (s : State) : (refuseOp s).cfg = s.cfg := rfl
@[simp] theorem refuseOp_lut (s : State) : (refuseOp s).lut = s.lut := rfl
@[simp] theorem refuseOp_powerOns (s : State) : (refuseOp s).powerOns = s.powerOns := rfl
@[simp] theorem refuseOp_np (s : State) : (refuseOp s).np = s.np := rfl
@[simp] theorem refuseOp_state (s : State) : (refuseOp s).state = s.state := rfl
@[simp] theorem refuseOp_cause (s : State) : (refuseOp s).cause = s.cause := rfl
@[simp] theorem refuseOp_hostErr (s : State) : (refuseOp s).hostErr = true := rfl
@[simp] theorem refuseOp_bits (s : State) : (refuseOp s).bits = s.bits := rfl
@[simp] theorem refuseOp_out (s : State) : (refuseOp s).out = s.out := rfl
@[simp] theorem refuseOp_returned (s : State) : (refuseOp s).returned = s.returned := rfl
@[simp] theorem refuseOp_pending (s : State) : (refuseOp s).pending = s.pending := rfl

@[simp] theorem hostReturn_cfg (v : Word) (s : State) : (hostReturn v s).cfg = s.cfg := rfl
@[simp] theorem hostReturn_lut (v : Word) (s : State) : (hostReturn v s).lut = s.lut := rfl
@[simp] theorem hostReturn_powerOns (v : Word) (s : State) : (hostReturn v s).powerOns = s.powerOns := rfl
@[simp] theorem hostReturn_np (v : Word) (s : State) : (hostReturn v s).np = s.np := rfl
@[simp] theorem hostReturn_state (v : Word) (s : State) : (hostReturn v s).state = s.state := rfl
@[simp] theorem hostReturn_cause (v : Word) (s : State) : (hostReturn v s).cause = s.cause := rfl
@[simp] theorem hostReturn_hostErr (v : Word) (s : State) : (hostReturn v s).hostErr = s.hostErr := rfl
@[simp] theorem hostReturn_bits (v : Word) (s : State) : (hostReturn v s).bits = s.bits := rfl
@[simp] theorem hostReturn_out (v : Word) (s : State) : (hostReturn v s).out = s.out := rfl
@[simp] theorem hostReturn_returned (v : Word) (s : State) : (hostReturn v s).returned = s.returned ++ [v] := rfl
@[simp] theorem hostReturn_pending (v : Word) (s : State) : (hostReturn v s).pending = s.pending := rfl

@[simp] theorem refuseRead_cfg (s : State) : (refuseRead s).cfg = s.cfg := rfl
@[simp] theorem refuseRead_lut (s : State) : (refuseRead s).lut = s.lut := rfl
@[simp] theorem refuseRead_powerOns (s : State) : (refuseRead s).powerOns = s.powerOns := rfl
@[simp] theorem refuseRead_np (s : State) : (refuseRead s).np = s.np := rfl
@[simp] theorem refuseRead_state (s : State) : (refuseRead s).state = s.state := rfl
@[simp] theorem refuseRead_cause (s : State) : (refuseRead s).cause = s.cause := rfl
@[simp] theorem refuseRead_hostErr (s : State) : (refuseRead s).hostErr = true := rfl
@[simp] theorem refuseRead_bits (s : State) : (refuseRead s).bits = s.bits := rfl
@[simp] theorem refuseRead_out (s : State) : (refuseRead s).out = s.out := rfl
@[simp] theorem refuseRead_returned (s : State) : (refuseRead s).returned = s.returned ++ [0x00000000#32] := rfl
@[simp] theorem refuseRead_pending (s : State) : (refuseRead s).pending = s.pending := rfl

@[simp] theorem resetBlock_cfg (s : State) : (resetBlock s).cfg = s.cfg := rfl
@[simp] theorem resetBlock_lut (s : State) : (resetBlock s).lut = s.lut := rfl
@[simp] theorem resetBlock_powerOns (s : State) : (resetBlock s).powerOns = s.powerOns := rfl
@[simp] theorem resetBlock_np (s : State) : (resetBlock s).np = 0 := rfl
@[simp] theorem resetBlock_state (s : State) : (resetBlock s).state = .idle := rfl
@[simp] theorem resetBlock_cause (s : State) : (resetBlock s).cause = .none := rfl
@[simp] theorem resetBlock_hostErr (s : State) : (resetBlock s).hostErr = false := rfl
@[simp] theorem resetBlock_bits (s : State) : (resetBlock s).bits = s.bits := rfl
@[simp] theorem resetBlock_out (s : State) : (resetBlock s).out = s.out := rfl
@[simp] theorem resetBlock_returned (s : State) : (resetBlock s).returned = s.returned := rfl
@[simp] theorem resetBlock_pending (s : State) : (resetBlock s).pending = s.pending := rfl

@[simp] theorem powerOnBlock_cfg (s : State) : (powerOnBlock s).cfg = s.cfg := rfl
@[simp] theorem powerOnBlock_lut (s : State) : (powerOnBlock s).lut = [] := rfl
@[simp] theorem powerOnBlock_powerOns (s : State) : (powerOnBlock s).powerOns = s.powerOns + 1 := rfl
@[simp] theorem powerOnBlock_np (s : State) : (powerOnBlock s).np = 0 := rfl
@[simp] theorem powerOnBlock_state (s : State) : (powerOnBlock s).state = .idle := rfl
@[simp] theorem powerOnBlock_cause (s : State) : (powerOnBlock s).cause = .none := rfl
@[simp] theorem powerOnBlock_hostErr (s : State) : (powerOnBlock s).hostErr = false := rfl
@[simp] theorem powerOnBlock_bits (s : State) : (powerOnBlock s).bits = s.bits := rfl
@[simp] theorem powerOnBlock_out (s : State) : (powerOnBlock s).out = s.out := rfl
@[simp] theorem powerOnBlock_returned (s : State) : (powerOnBlock s).returned = s.returned := rfl
@[simp] theorem powerOnBlock_pending (s : State) : (powerOnBlock s).pending = s.pending := rfl

@[simp] theorem setStream_cfg (bs : List Bool) (s : State) : (setStream bs s).cfg = s.cfg := rfl
@[simp] theorem setStream_lut (bs : List Bool) (s : State) : (setStream bs s).lut = s.lut := rfl
@[simp] theorem setStream_powerOns (bs : List Bool) (s : State) : (setStream bs s).powerOns = s.powerOns := rfl
@[simp] theorem setStream_np (bs : List Bool) (s : State) : (setStream bs s).np = s.np := rfl
@[simp] theorem setStream_state (bs : List Bool) (s : State) : (setStream bs s).state = s.state := rfl
@[simp] theorem setStream_cause (bs : List Bool) (s : State) : (setStream bs s).cause = s.cause := rfl
@[simp] theorem setStream_hostErr (bs : List Bool) (s : State) : (setStream bs s).hostErr = s.hostErr := rfl
@[simp] theorem setStream_bits (bs : List Bool) (s : State) : (setStream bs s).bits = bs := rfl
@[simp] theorem setStream_out (bs : List Bool) (s : State) : (setStream bs s).out = s.out := rfl
@[simp] theorem setStream_returned (bs : List Bool) (s : State) : (setStream bs s).returned = s.returned := rfl
@[simp] theorem setStream_pending (bs : List Bool) (s : State) : (setStream bs s).pending = s.pending := rfl

@[simp] theorem setPending_cfg (es : List Event) (s : State) : (setPending es s).cfg = s.cfg := rfl
@[simp] theorem setPending_lut (es : List Event) (s : State) : (setPending es s).lut = s.lut := rfl
@[simp] theorem setPending_powerOns (es : List Event) (s : State) : (setPending es s).powerOns = s.powerOns := rfl
@[simp] theorem setPending_np (es : List Event) (s : State) : (setPending es s).np = s.np := rfl
@[simp] theorem setPending_state (es : List Event) (s : State) : (setPending es s).state = s.state := rfl
@[simp] theorem setPending_cause (es : List Event) (s : State) : (setPending es s).cause = s.cause := rfl
@[simp] theorem setPending_hostErr (es : List Event) (s : State) : (setPending es s).hostErr = s.hostErr := rfl
@[simp] theorem setPending_bits (es : List Event) (s : State) : (setPending es s).bits = s.bits := rfl
@[simp] theorem setPending_out (es : List Event) (s : State) : (setPending es s).out = s.out := rfl
@[simp] theorem setPending_returned (es : List Event) (s : State) : (setPending es s).returned = s.returned := rfl
@[simp] theorem setPending_pending (es : List Event) (s : State) : (setPending es s).pending = es := rfl

end Sys2Proof.Machine
end

