-- ==== Sys2Proof/Laws/Memory.lean ====
section
/-! SUPPORT. The laws of the LUT: a read after a write, what a write leaves alone, and that every operation keeps the
canonical form. -/

namespace Sys2Proof.Machine

@[simp] theorem Memory.read?_write_self (m : Memory) (i : Nat) (w : Word) :
    Memory.read? (Memory.write m i w) i = some w := by
  induction m with
  | nil => simp [Memory.write, Memory.read?]
  | cons e m ih =>
    obtain ⟨j, v⟩ := e
    rcases Nat.lt_trichotomy i j with h | h | h
    · simp [Memory.write, Memory.read?, h]
    · simp [Memory.write, Memory.read?, h]
    · simp [Memory.write, Memory.read?, Nat.not_lt.2 h.le, h.ne', ih]

theorem Memory.read?_write_of_ne (m : Memory) {i j : Nat} (w : Word) (h : j ≠ i) :
    Memory.read? (Memory.write m i w) j = Memory.read? m j := by
  induction m with
  | nil => simp [Memory.write, Memory.read?, h]
  | cons e m ih =>
    obtain ⟨k, v⟩ := e
    rcases Nat.lt_trichotomy i k with hik | hik | hik
    · simp [Memory.write, Memory.read?, hik, h]
    · subst hik; simp [Memory.write, Memory.read?, h]
    · simp [Memory.write, Memory.read?, Nat.not_lt.2 hik.le, hik.ne', ih]

theorem Memory.mem_write {m : Memory} {i : Nat} {w : Word} {e : Nat × Word} (h : e ∈ Memory.write m i w) :
    e = (i, w) ∨ e ∈ m := by
  induction m with
  | nil => simpa [Memory.write] using h
  | cons f m ih =>
    obtain ⟨j, v⟩ := f
    rcases Nat.lt_trichotomy i j with hij | hij | hij
    · simpa [Memory.write, hij] using h
    · simp only [Memory.write, hij, lt_irrefl, if_false, if_true, List.mem_cons] at h
      rcases h with h | h
      · exact .inl (by rw [h, hij])
      · exact .inr (List.mem_cons_of_mem _ h)
    · simp only [Memory.write, Nat.not_lt.2 hij.le, hij.ne', if_false, List.mem_cons] at h
      rcases h with h | h
      · exact .inr (by simp [h])
      · rcases ih h with h' | h'
        · exact .inl h'
        · exact .inr (List.mem_cons_of_mem _ h')

theorem Memory.wf_write {m : Memory} (h : Memory.wf m) (i : Nat) (w : Word) : Memory.wf (Memory.write m i w) := by
  induction m with
  | nil => simp [Memory.write, Memory.wf]
  | cons e m ih =>
    obtain ⟨j, v⟩ := e
    obtain ⟨hj, hm⟩ := List.pairwise_cons.1 h
    rcases Nat.lt_trichotomy i j with hij | hij | hij
    · simp only [Memory.write, hij, if_true]
      refine List.pairwise_cons.2 ⟨fun f hf => ?_, h⟩
      rcases List.mem_cons.1 hf with rfl | hf
      · exact hij
      · exact hij.trans (hj f hf)
    · subst hij
      simp only [Memory.write, lt_irrefl, if_false, if_true]
      exact List.pairwise_cons.2 ⟨hj, hm⟩
    · simp only [Memory.write, Nat.not_lt.2 hij.le, hij.ne', if_false]
      refine List.pairwise_cons.2 ⟨fun f hf => ?_, ih hm⟩
      rcases Memory.mem_write hf with rfl | hf
      · exact hij
      · exact hj f hf

theorem Memory.wf_nil : Memory.wf [] := List.Pairwise.nil

/-- Everything an entry of the LUT can hold: the word written, or its free word. -/
theorem memRead_cases (s : State) (i : Nat) :
    (∃ w, Memory.read? s.lut i = some w ∧ memRead s i = w) ∨
      (Memory.read? s.lut i = none ∧ memRead s i = Config.powerOnWord s.powerOns i) := by
  unfold memRead
  cases h : Memory.read? s.lut i with
  | none => exact .inr ⟨rfl, rfl⟩
  | some w => exact .inl ⟨w, rfl, rfl⟩

@[simp] theorem memRead_memWrite_self (s : State) (i : Nat) (w : Word) : memRead (memWrite i w s) i = w := by
  simp [memRead]

theorem memRead_memWrite_of_ne (s : State) {i j : Nat} (w : Word) (h : j ≠ i) :
    memRead (memWrite i w s) j = memRead s j := by
  simp [memRead, Memory.read?_write_of_ne _ _ h]

/-- A read of the LUT sees the written entries and the power-on they follow, nothing else of the state. -/
theorem memRead_congr {s t : State} (hl : t.lut = s.lut) (hp : t.powerOns = s.powerOns) (i : Nat) :
    memRead t i = memRead s i := by
  simp [memRead, hl, hp]

theorem fetch_eq_some {s : State} (h : s.np < s.cfg.nodeCount) : fetch s = some (memRead s s.np) := by
  simp [fetch, h]

theorem fetch_eq_none {s : State} (h : s.cfg.nodeCount ≤ s.np) : fetch s = none := by
  simp [fetch, Nat.not_lt.2 h]

/-- What `BsTake()` can answer: nothing at the end of the data, else the first bit, consumed. -/
theorem bsTake_eq_none {s : State} : bsTake s = none ↔ s.bits = [] := by
  unfold bsTake
  cases s.bits <;> simp

theorem bsTake_eq_some {s t : State} {b : Bool} :
    bsTake s = some (b, t) ↔ ∃ rest, s.bits = b :: rest ∧ t = setStream rest s := by
  unfold bsTake setStream
  cases h : s.bits with
  | nil => simp
  | cons b' rest =>
    constructor
    · rintro h; cases h; exact ⟨rest, rfl, rfl⟩
    · rintro ⟨rest', h, rfl⟩; cases h; rfl

end Sys2Proof.Machine
end

