-- ==== Sys2Proof/Laws/Exec.lean ====
section
/-! SUPPORT. One spec lemma per meaning and per turn: everything it can do, so that later proofs cite it and do not unfold
the machine. -/

namespace Sys2Proof.Machine

/-- LEAF: everything it can do. -/
theorem execLeaf_cases (x : Nat) (s : State) :
    (s.np = 0 ∧ execLeaf x s = .next (endRun (symOut x s))) ∨
      (s.np ≠ 0 ∧ execLeaf x s = .next (moveTo 0 (symOut x s))) := by
  unfold execLeaf
  by_cases h : s.np = 0 <;> simp [h]

/-- NODE: everything it can do, its four branches with their guards. -/
theorem execNode_cases (l r : Nat) (s : State) :
    (s.bits = [] ∧ s.np = 0 ∧ execNode l r s = .next (endRun s)) ∨
    (s.bits = [] ∧ s.np ≠ 0 ∧ execNode l r s = .next (raiseFault .truncated s)) ∨
    (∃ b rest, s.bits = b :: rest ∧ childOf b l r = 0 ∧
      execNode l r s = .next (raiseFault .nullChild (setStream rest s))) ∨
    (∃ b rest, s.bits = b :: rest ∧ childOf b l r ≠ 0 ∧
      execNode l r s = .next (moveTo (childOf b l r) (setStream rest s))) := by
  unfold execNode
  cases h : bsTake s with
  | none =>
    have hb := bsTake_eq_none.1 h
    by_cases h0 : s.np = 0
    · exact .inl ⟨hb, h0, by simp [h0]⟩
    · exact .inr (.inl ⟨hb, h0, by simp [h0]⟩)
  | some bt =>
    obtain ⟨b, t⟩ := bt
    obtain ⟨rest, hb, rfl⟩ := bsTake_eq_some.1 h
    by_cases h0 : childOf b l r = 0
    · exact .inr (.inr (.inl ⟨b, rest, hb, h0, by simp [h0]⟩))
    · exact .inr (.inr (.inr ⟨b, rest, hb, h0, by simp [h0]⟩))

/-- START: everything it can do. -/
theorem execStart_cases (s : State) :
    ((s.state = .idle ∨ s.state = .done) ∧ execStart s = .next (beginRun s)) ∨
      ((s.state = .run ∨ s.state = .fault) ∧ execStart s = .next (refuseOp s)) := by
  unfold execStart
  cases h : s.state <;> simp

/-- CLEAR: everything it can do. -/
theorem execClear_cases (s : State) :
    (s.state ≠ .run ∧ execClear s = .next (acknowledge s)) ∨ (s.state = .run ∧ execClear s = .next (refuseOp s)) := by
  unfold execClear
  cases h : s.state <;> simp

/-- The command a value written to CTRL selects by its fields is the one its word decodes to (41_host_commands.md R78,
30_encoding.md R58). -/
theorem execCsrwr_zero (v : Word) (s : State) : execCsrwr 0 v s = exec (decodeCommand v) s := by
  have hr : cmdReserved v = v.toNat / 4 := by
    have : v.toNat / 4 < 2 ^ 30 := by have := v.isLt; omega
    simp only [cmdReserved, slice, Nat.shiftRight_eq_div_pow]
    omega
  have hf : cmdField v = v.toNat % 4 := by simp [cmdField, slice]
  have hv : ∀ k, k < 2 ^ 32 → (v = BitVec.ofNat 32 k ↔ v.toNat = k) := fun k hk => by
    rw [← BitVec.toNat_inj, BitVec.toNat_ofNat, Nat.mod_eq_of_lt hk]
  unfold execCsrwr decodeCommand
  simp only [hr, hf, hv 0 (by omega), hv 1 (by omega), hv 2 (by omega)]
  by_cases h4 : v.toNat / 4 = 0
  · have : v.toNat = 0 ∨ v.toNat = 1 ∨ v.toNat = 2 ∨ v.toNat = 3 := by omega
    rcases this with h | h | h | h <;> simp [h, exec, execReservedCmd]
  · have h0 : v.toNat ≠ 0 := by omega
    have h1 : v.toNat ≠ 1 := by omega
    have h2 : v.toNat ≠ 2 := by omega
    simp [h4, h0, h1, h2, exec, execReservedCmd]

/-- CSRRD: everything it can do. -/
theorem execCsrrd_cases (n : Nat) (s : State) :
    (∃ v, n < 4 ∧ csrValue s n = some v ∧ execCsrrd n s = .next (hostReturn v s)) ∨
      (4 ≤ n ∧ execCsrrd n s = .next (refuseRead s)) := by
  match n with
  | 0 => exact .inl ⟨_, by omega, rfl, rfl⟩
  | 1 => exact .inl ⟨_, by omega, rfl, rfl⟩
  | 2 => exact .inl ⟨_, by omega, rfl, rfl⟩
  | 3 => exact .inl ⟨_, by omega, rfl, rfl⟩
  | n + 4 => exact .inr ⟨by omega, rfl⟩

/-- LUTRD: everything it can do. -/
theorem execLutrd_cases (i : Nat) (s : State) :
    (i < s.cfg.nodeCount ∧ execLutrd i s = .next (hostReturn (memRead s i) s)) ∨
      (s.cfg.nodeCount ≤ i ∧ execLutrd i s = .next (refuseRead s)) := by
  unfold execLutrd
  by_cases h : s.cfg.nodeCount ≤ i
  · exact .inr ⟨h, by simp [h]⟩
  · exact .inl ⟨by omega, by simp [h]⟩

/-- LUTWR: everything it can do. -/
theorem execLutwr_cases (i : Nat) (w : Word) (s : State) :
    (s.state ≠ .run ∧ i < s.cfg.nodeCount ∧ execLutwr i w s = .next (memWrite i w s)) ∨
      ((s.state = .run ∨ s.cfg.nodeCount ≤ i) ∧ execLutwr i w s = .next (refuseOp s)) := by
  unfold execLutwr
  by_cases h : s.state = .run ∨ s.cfg.nodeCount ≤ i
  · exact .inr ⟨h, by simp [h]⟩
  · refine .inl ⟨fun e => h (.inl e), by omega, by simp [h]⟩

/-- Everything a host instruction can do to the block: nothing; begin a run; acknowledge; be refused; write one LUT
entry; return a value; refuse a read. -/
inductive HostEffect (s : State) : State → Prop where
  | unchanged : HostEffect s s
  | begins (h : s.state = .idle ∨ s.state = .done) : HostEffect s (beginRun s)
  | acknowledges (h : s.state ≠ .run) : HostEffect s (acknowledge s)
  | refused : HostEffect s (refuseOp s)
  | writes {i : Nat} {w : Word} (h : s.state ≠ .run) (hi : i < s.cfg.nodeCount) : HostEffect s (memWrite i w s)
  | returns (v : Word) : HostEffect s (hostReturn v s)
  | refusedRead : HostEffect s (refuseRead s)

/-- A bus access that is no abstract access is refused, as a read or as a write, or changes nothing. -/
theorem dropAccess_effect (e : DecodeError) (isRead : Bool) (s : State) : HostEffect s (dropAccess e isRead s) := by
  cases e <;> cases isRead <;> first | exact .unchanged | exact .refused | exact .refusedRead

theorem execStart_effect (s : State) : ∃ t, execStart s = .next t ∧ HostEffect s t := by
  rcases execStart_cases s with ⟨h, e⟩ | ⟨-, e⟩
  · exact ⟨_, e, .begins h⟩
  · exact ⟨_, e, .refused⟩

theorem execClear_effect (s : State) : ∃ t, execClear s = .next t ∧ HostEffect s t := by
  rcases execClear_cases s with ⟨h, e⟩ | ⟨-, e⟩
  · exact ⟨_, e, .acknowledges h⟩
  · exact ⟨_, e, .refused⟩

theorem decodeCommand_effect (v : Word) (s : State) : ∃ t, exec (decodeCommand v) s = .next t ∧ HostEffect s t := by
  unfold decodeCommand
  split_ifs
  · exact ⟨s, rfl, .unchanged⟩
  · exact execStart_effect s
  · exact execClear_effect s
  · exact ⟨_, rfl, .refused⟩

theorem decodeAccess_effect (a : Access) (s : State) : ∃ t, exec (decodeAccess a) s = .next t ∧ HostEffect s t := by
  match a with
  | ⟨.csr, n, none⟩ =>
    rcases execCsrrd_cases n s with ⟨v, -, -, e⟩ | ⟨-, e⟩
    · exact ⟨_, e, .returns v⟩
    · exact ⟨_, e, .refusedRead⟩
  | ⟨.csr, 0, some v⟩ =>
    obtain ⟨t, e, h⟩ := decodeCommand_effect v s
    exact ⟨t, (execCsrwr_zero v s).trans e, h⟩
  | ⟨.csr, n + 1, some v⟩ => exact ⟨_, by simp [decodeAccess, exec, execCsrwr], .refused⟩
  | ⟨.lut, i, none⟩ =>
    rcases execLutrd_cases i s with ⟨-, e⟩ | ⟨-, e⟩
    · exact ⟨_, e, .returns _⟩
    · exact ⟨_, e, .refusedRead⟩
  | ⟨.lut, i, some w⟩ =>
    rcases execLutwr_cases i w s with ⟨h, hi, e⟩ | ⟨-, e⟩
    · exact ⟨_, e, .writes h hi⟩
    · exact ⟨_, e, .refused⟩

/-- Everything a host operation's turn can do (41_host_commands.md R77): it always answers a next state. -/
theorem hostTurn_effect {r : Raw} (hr : r.isHost = true) (s : State) :
    ∃ t, hostTurn r s = .next t ∧ HostEffect s t := by
  match r with
  | .command v => exact decodeCommand_effect v s
  | .access a => exact decodeAccess_effect a s
  | .bus b =>
    simp only [hostTurn, decode]
    cases bindBus s.cfg b with
    | ok a => exact decodeAccess_effect a s
    | error e =>
      exact ⟨_, rfl, dropAccess_effect e _ s⟩

/-- Everything the engine's turn can do: rest outside RUN; stop at an index that does not exist; execute one of the four
kinds of word. -/
theorem engineTurn_cases (s : State) :
    (s.state ≠ .run ∧ engineTurn s = .next s) ∨
    (s.state = .run ∧ s.cfg.nodeCount ≤ s.np ∧ engineTurn s = .fault .noSuchEntry) ∨
    (s.state = .run ∧ s.np < s.cfg.nodeCount ∧ engineTurn s = exec (nodeAt s s.np) s) := by
  unfold engineTurn nodeAt
  by_cases hr : s.state = .run
  · by_cases hn : s.np < s.cfg.nodeCount
    · exact .inr (.inr ⟨hr, hn, by simp [hr, fetch_eq_some hn]⟩)
    · exact .inr (.inl ⟨hr, by omega, by simp [hr, fetch_eq_none (by omega : s.cfg.nodeCount ≤ s.np)]⟩)
  · exact .inl ⟨hr, by simp [hr]⟩

/-- A step is the turn that is due. -/
theorem step_nil {s : State} (h : s.pending = []) : step s = engineTurn s := by
  unfold step; rw [h]

theorem step_cons {s : State} {e : Event} {es : List Event} (h : s.pending = e :: es) :
    step s = turn e (setPending es s) := by
  unfold step; rw [h]

end Sys2Proof.Machine
end

