-- ==== Sys2Proof/Laws/Image.lean ====
section
/-! SUPPORT. The laws of a walk along a sequence of bits. -/

namespace Sys2Proof.Machine

theorem walkCode_append (t : Nat → Instr) (p : Nat) (a b : Code) :
    walkCode t p (a ++ b) = (walkCode t p a).bind fun q => walkCode t q b := by
  induction a generalizing p with
  | nil => rfl
  | cons x a ih =>
    simp only [List.cons_append, walkCode]
    cases t p <;> simp
    split_ifs <;> simp [ih]

/-- One step of a walk: the word is a NODE and the child on that side is present. -/
theorem walkCode_cons {t : Nat → Instr} {p q : Nat} {b : Bool} {a : Code} :
    walkCode t p (b :: a) = some q ↔
      ∃ l r, t p = .node l r ∧ childOf b l r ≠ 0 ∧ walkCode t (childOf b l r) a = some q := by
  simp only [walkCode]
  cases h : t p <;> simp

/-- A walk of at least one bit ends below the root. -/
theorem walkCode_ne_zero {t : Nat → Instr} {p q : Nat} {b : Bool} {a : Code} (h : walkCode t p (b :: a) = some q) :
    q ≠ 0 := by
  induction a generalizing p b with
  | nil =>
    obtain ⟨l, r, -, h0, hq⟩ := walkCode_cons.1 h
    cases hq
    exact h0
  | cons c a ih =>
    obtain ⟨l, r, -, -, hq⟩ := walkCode_cons.1 h
    exact ih hq

theorem walkCode_reach {t : Nat → Instr} {p q : Nat} {a : Code} (hp : Reach t p) (h : walkCode t p a = some q) :
    Reach t q := by
  induction a generalizing p with
  | nil => cases h; exact hp
  | cons b a ih =>
    obtain ⟨l, r, ht, h0, hq⟩ := walkCode_cons.1 h
    refine ih ?_ hq
    cases b
    · exact .left hp ht h0
    · exact .right hp ht h0

/-- The last step of a walk leads from the parent. -/
theorem walkCode_snoc {t : Nat → Instr} {a : Code} {b : Bool} {p q : Nat} (h : walkCode t p (a ++ [b]) = some q) :
    ∃ p', walkCode t p a = some p' ∧ childField (t p') b = some q := by
  rw [walkCode_append] at h
  cases hp : walkCode t p a with
  | none => simp [hp] at h
  | some p' =>
    simp only [hp, Option.bind_some] at h
    obtain ⟨l, r, ht, -, hq⟩ := walkCode_cons.1 h
    cases hq
    exact ⟨p', rfl, by simp [childField, ht]⟩

end Sys2Proof.Machine
end

