-- ==== Sys2Proof/Laws/PerInstr.lean ====
section
/-! SUPPORT. Per instruction: the encoder's word carries the fixed bits that spec/opcode_table.json gives the
instruction's row (its "fixed" entries, at the default parameters the table is for), in the row's own space. -/

namespace Sys2Proof.Laws.TableRow

/-- The row's fixed bits as the table lists them, (hi, lo, value), of the node word, the command word or the byte offset
of the default bus binding. -/
def fixedBits : Instr → List (Nat × Nat × Nat)
  | .empty => [(31, 0, 0)]
  | .leaf _ => [(31, 16, 16384)]
  | .node _ _ => [(31, 24, 128)]
  | .illegal _ => []
  | .nop => [(31, 0, 0)]
  | .start => [(31, 0, 1)]
  | .clear => [(31, 0, 2)]
  | .reservedCmd _ => []
  | .csrrd _ => [(1, 0, 0), (17, 17, 0)]
  | .csrwr _ _ => [(1, 0, 0), (17, 17, 0)]
  | .lutrd _ => [(1, 0, 0), (17, 17, 1)]
  | .lutwr _ _ => [(1, 0, 0), (17, 17, 1)]

/-- A word carries the fixed bits. -/
abbrev Carries (w : Word) (l : List (Nat × Nat × Nat)) : Prop := ∀ f ∈ l, slice w f.1 f.2.1 = f.2.2

/-- The row's space, and the fixed bits there. A host access reaches the binding's addresses, below 32768. -/
def Statement (i : Instr) : Prop :=
  WellFormed Config.default i = true →
    match encode Config.default i with
    | .node w => Carries w (fixedBits i)
    | .command v => Carries v (fixedBits i)
    | .access a => a.addr < 32768 → Carries (BitVec.ofNat 32 (encodeBus a).offset) (fixedBits i)
    | .bus _ => False

theorem default_ok : Config.default.Ok := by decide

theorem empty : Statement .empty := fun _ => show Carries _ _ by decide

theorem leaf (s : Nat) : Statement (.leaf s) := by
  intro h f hf
  have hs : s < 2 ^ 16 := wellFormed_leaf.1 h
  simp only [fixedBits, List.mem_singleton] at hf
  subst hf
  simp only [slice, encodeLeaf_toNat (by omega : s < 2 ^ 30), Nat.shiftRight_eq_div_pow]
  omega

theorem node (l r : Nat) : Statement (.node l r) := by
  intro h f hf
  have hlr : l < 2 ^ 12 ∧ r < 2 ^ 12 := wellFormed_node.1 h
  simp only [fixedBits, List.mem_singleton] at hf
  subst hf
  have e := encodeNode_toNat default_ok (l := l) (r := r) hlr.1 hlr.2
  simp only [slice, e, Nat.shiftRight_eq_div_pow]
  simp only [Config.default]
  omega

theorem illegal (w : Word) : Statement (.illegal w) := fun _ f hf => by simp [fixedBits] at hf

theorem nop : Statement .nop := fun _ => show Carries _ _ by decide

theorem start : Statement .start := fun _ => show Carries _ _ by decide

theorem clear : Statement .clear := fun _ => show Carries _ _ by decide

theorem reservedCmd (v : Word) : Statement (.reservedCmd v) := fun _ f hf => by simp [fixedBits] at hf

/-- The byte offset of a CSR on the default binding. -/
theorem carries_csr {n : Nat} (h : n < 32768) : Carries (BitVec.ofNat 32 (4 * n)) [(1, 0, 0), (17, 17, 0)] := by
  intro f hf
  rcases List.mem_cons.1 hf with rfl | hf
  · simp only [slice, BitVec.toNat_ofNat, Nat.shiftRight_eq_div_pow]; omega
  · rw [List.mem_singleton] at hf
    subst hf
    simp only [slice, BitVec.toNat_ofNat, Nat.shiftRight_eq_div_pow]; omega

/-- The byte offset of a LUT entry on the default binding. -/
theorem carries_lut {i : Nat} (h : i < 32768) :
    Carries (BitVec.ofNat 32 (busLutBase + 4 * i)) [(1, 0, 0), (17, 17, 1)] := by
  intro f hf
  rcases List.mem_cons.1 hf with rfl | hf
  · simp only [slice, busLutBase, BitVec.toNat_ofNat, Nat.shiftRight_eq_div_pow]; omega
  · rw [List.mem_singleton] at hf
    subst hf
    simp only [slice, busLutBase, BitVec.toNat_ofNat, Nat.shiftRight_eq_div_pow]; omega

theorem csrrd (n : Nat) : Statement (.csrrd n) := fun _ h => carries_csr h

theorem csrwr (n : Nat) (v : Word) : Statement (.csrwr n v) := fun _ h => carries_csr h

theorem lutrd (i : Nat) : Statement (.lutrd i) := fun _ h => carries_lut h

theorem lutwr (i : Nat) (w : Word) : Statement (.lutwr i w) := fun _ h => carries_lut h

end Sys2Proof.Laws.TableRow
end

