-- ==== Sys2Proof/Laws/Step.lean ====
section
/-! SUPPORT. Inversion of a step: everything it can do, said once, for whatever is due; and the laws of several steps. -/

namespace Sys2Proof.Machine

/-- Everything a node word can do to the block, by its kind: one constructor per branch, its guard with it. -/
inductive EngineEffect (s : State) : Instr → State → Prop where
  | empty : EngineEffect s .empty (raiseFault .emptyNode s)
  | illegal {w : Word} : EngineEffect s (.illegal w) (raiseFault .illegalNode s)
  | leafRoot {x : Nat} (h : s.np = 0) : EngineEffect s (.leaf x) (endRun (symOut x s))
  | leafBelow {x : Nat} (h : s.np ≠ 0) : EngineEffect s (.leaf x) (moveTo 0 (symOut x s))
  | nodeEnd {l r : Nat} (hb : s.bits = []) (h : s.np = 0) : EngineEffect s (.node l r) (endRun s)
  | nodeTruncated {l r : Nat} (hb : s.bits = []) (h : s.np ≠ 0) :
      EngineEffect s (.node l r) (raiseFault .truncated s)
  | nodeNull {l r : Nat} {b : Bool} {rest : List Bool} (hb : s.bits = b :: rest) (h : childOf b l r = 0) :
      EngineEffect s (.node l r) (raiseFault .nullChild (setStream rest s))
  | nodeMoves {l r : Nat} {b : Bool} {rest : List Bool} (hb : s.bits = b :: rest) (h : childOf b l r ≠ 0) :
      EngineEffect s (.node l r) (moveTo (childOf b l r) (setStream rest s))

/-- A node word always answers a next state, and this is all that it can be. -/
theorem node_effect (s : State) (c : Config) (w : Word) :
    ∃ t, exec (decodeNode c w) s = .next t ∧ EngineEffect s (decodeNode c w) t := by
  rcases decodeNode_shape c w with e | ⟨x, e⟩ | ⟨l, r, e⟩ | e <;> rw [e]
  · exact ⟨_, rfl, .empty⟩
  · rcases execLeaf_cases x s with ⟨h, e⟩ | ⟨h, e⟩
    · exact ⟨_, e, .leafRoot h⟩
    · exact ⟨_, e, .leafBelow h⟩
  · rcases execNode_cases l r s with ⟨hb, h, e⟩ | ⟨hb, h, e⟩ | ⟨b, rest, hb, h, e⟩ | ⟨b, rest, hb, h, e⟩
    · exact ⟨_, e, .nodeEnd hb h⟩
    · exact ⟨_, e, .nodeTruncated hb h⟩
    · exact ⟨_, e, .nodeNull hb h⟩
    · exact ⟨_, e, .nodeMoves hb h⟩
  · exact ⟨_, rfl, .illegal⟩

/-- Everything the engine's turn can do when it answers a next state. -/
theorem engineTurn_inv {s t : State} (h : engineTurn s = .next t) :
    (s.state ≠ .run ∧ t = s) ∨
      (s.state = .run ∧ s.np < s.cfg.nodeCount ∧ EngineEffect s (nodeAt s s.np) t) := by
  rcases engineTurn_cases s with ⟨hr, e⟩ | ⟨-, -, e⟩ | ⟨hr, hn, e⟩ <;> rw [e] at h
  · cases h; exact .inl ⟨hr, rfl⟩
  · cases h
  · obtain ⟨t', e', he⟩ := node_effect s s.cfg (memRead s s.np)
    rw [show nodeAt s s.np = decodeNode s.cfg (memRead s s.np) from rfl, e'] at h
    cases h
    exact .inr ⟨hr, hn, he⟩

/-- Everything a host instruction that is due can do, instruction by instruction. -/
inductive DueEffect (s t : State) : Instr → Prop where
  | nop (h : t = s) : DueEffect s t .nop
  | start (h : execStart s = .next t) : DueEffect s t .start
  | clear (h : execClear s = .next t) : DueEffect s t .clear
  | reservedCmd {v : Word} (hv : 3 ≤ v.toNat) (h : t = refuseOp s) : DueEffect s t (.reservedCmd v)
  | ctrlNop (h : t = s) : DueEffect s t (.csrwr 0 0x00000000#32)
  | ctrlStart (h : execStart s = .next t) : DueEffect s t (.csrwr 0 0x00000001#32)
  | ctrlClear (h : execClear s = .next t) : DueEffect s t (.csrwr 0 0x00000002#32)
  | ctrlReserved {v : Word} (hv : 3 ≤ v.toNat) (h : t = refuseOp s) : DueEffect s t (.csrwr 0 v)
  | notCtrl {n : Nat} {v : Word} (hn : n ≠ 0) (h : t = refuseOp s) : DueEffect s t (.csrwr n v)
  | csrrd {n : Nat} {v : Word} (hn : n < 4) (h : t = hostReturn v s) : DueEffect s t (.csrrd n)
  | csrrdRefused {n : Nat} (hn : 4 ≤ n) (h : t = refuseRead s) : DueEffect s t (.csrrd n)
  | lutrd {i : Nat} (hi : i < s.cfg.nodeCount) (h : t = hostReturn (memRead s i) s) : DueEffect s t (.lutrd i)
  | lutrdRefused {i : Nat} (hi : s.cfg.nodeCount ≤ i) (h : t = refuseRead s) : DueEffect s t (.lutrd i)
  | lutwr {i : Nat} {w : Word} (hr : s.state ≠ .run) (hi : i < s.cfg.nodeCount) (h : t = memWrite i w s) :
      DueEffect s t (.lutwr i w)
  | lutwrRefused {i : Nat} {w : Word} (hi : s.state = .run ∨ s.cfg.nodeCount ≤ i) (h : t = refuseOp s) :
      DueEffect s t (.lutwr i w)

/-- The four kinds of command word (30_encoding.md R58). -/
theorem decodeCommand_cases (v : Word) :
    (v = 0x00000000#32 ∧ decodeCommand v = .nop) ∨ (v = 0x00000001#32 ∧ decodeCommand v = .start) ∨
      (v = 0x00000002#32 ∧ decodeCommand v = .clear) ∨ (3 ≤ v.toNat ∧ decodeCommand v = .reservedCmd v) := by
  unfold decodeCommand
  split_ifs with h0 h1 h2
  · exact .inl ⟨h0, rfl⟩
  · exact .inr (.inl ⟨h1, rfl⟩)
  · exact .inr (.inr (.inl ⟨h2, rfl⟩))
  · refine .inr (.inr (.inr ⟨?_, rfl⟩))
    have hv : ∀ k, k < 2 ^ 32 → (v = BitVec.ofNat 32 k ↔ v.toNat = k) := fun k hk => by
      rw [← BitVec.toNat_inj, BitVec.toNat_ofNat, Nat.mod_eq_of_lt hk]
    rw [hv 0 (by omega)] at h0
    rw [hv 1 (by omega)] at h1
    rw [hv 2 (by omega)] at h2
    omega

theorem command_due {v : Word} {s t : State} (e : exec (decodeCommand v) s = .next t) :
    DueEffect s t (decodeCommand v) := by
  rcases decodeCommand_cases v with ⟨-, h⟩ | ⟨-, h⟩ | ⟨-, h⟩ | ⟨hv, h⟩ <;> rw [h] at e ⊢
  · cases e; exact .nop rfl
  · exact .start e
  · exact .clear e
  · cases e; exact .reservedCmd hv rfl

theorem access_due {a : Access} {s t : State} (e : exec (decodeAccess a) s = .next t) :
    DueEffect s t (decodeAccess a) := by
  match a with
  | ⟨.csr, n, none⟩ =>
    rcases execCsrrd_cases n s with ⟨v, hn, -, e'⟩ | ⟨hn, e'⟩ <;> rw [decodeAccess, exec, e'] at e <;> cases e
    · exact .csrrd hn rfl
    · exact .csrrdRefused hn rfl
  | ⟨.csr, 0, some v⟩ =>
    rw [decodeAccess, exec, execCsrwr_zero] at e
    rcases decodeCommand_cases v with ⟨rfl, h⟩ | ⟨rfl, h⟩ | ⟨rfl, h⟩ | ⟨hv, h⟩ <;> rw [h] at e
    · cases e; exact .ctrlNop rfl
    · exact .ctrlStart e
    · exact .ctrlClear e
    · cases e; exact .ctrlReserved hv rfl
  | ⟨.csr, n + 1, some v⟩ =>
    rw [decodeAccess, exec, execCsrwr, if_pos (by omega)] at e
    cases e; exact .notCtrl (by omega) rfl
  | ⟨.lut, i, none⟩ =>
    rcases execLutrd_cases i s with ⟨hi, e'⟩ | ⟨hi, e'⟩ <;> rw [decodeAccess, exec, e'] at e <;> cases e
    · exact .lutrd hi rfl
    · exact .lutrdRefused hi rfl
  | ⟨.lut, i, some w⟩ =>
    rcases execLutwr_cases i w s with ⟨hr, hi, e'⟩ | ⟨hi, e'⟩ <;> rw [decodeAccess, exec, e'] at e <;> cases e
    · exact .lutwr hr hi rfl
    · exact .lutwrRefused hi rfl

/-- A host operation's turn, in full: the instruction it decodes to with all that one can do, or a bus access
that is none. -/
theorem hostTurn_inv {r : Raw} {s t : State} (hr : r.isHost = true) (h : hostTurn r s = .next t) :
    (∃ i, decode s.cfg r = .ok i ∧ DueEffect s t i) ∨
      ∃ b e, r = .bus b ∧ bindBus s.cfg b = .error e ∧ t = dropAccess e (Raw.bus b).isRead s := by
  match r with
  | .command v => exact .inl ⟨_, rfl, command_due h⟩
  | .access a => exact .inl ⟨_, rfl, access_due h⟩
  | .bus b =>
    simp only [hostTurn, decode] at h ⊢
    cases hb : bindBus s.cfg b with
    | ok a => rw [hb] at h; exact .inl ⟨_, rfl, access_due h⟩
    | error e => rw [hb] at h; cases h; exact .inr ⟨b, e, rfl, hb, rfl⟩

/-- The default binding refuses exactly these accesses (20_memory.md R45), never as not carried. -/
theorem defaultAccess_cases (b : BusAccess) :
    ((b.width ≠ 32 ∨ b.offset % 4 ≠ 0 ∨ 0x40000 ≤ b.offset) ∧
        ∃ e, defaultAccess b = .error e ∧ ∀ r s, dropAccess e r s = refuseAccess r s) ∨
      (¬(b.width ≠ 32 ∨ b.offset % 4 ≠ 0 ∨ 0x40000 ≤ b.offset) ∧ ∃ a, defaultAccess b = .ok a) := by
  unfold defaultAccess busWindow
  split_ifs with h1 h2 h3 h4
  · exact .inl ⟨.inl h1, _, rfl, fun _ _ => rfl⟩
  · exact .inl ⟨.inr (.inl h2), _, rfl, fun _ _ => rfl⟩
  · exact .inl ⟨.inr (.inr h3), _, rfl, fun _ _ => rfl⟩
  · exact .inr ⟨by rintro (h | h | h) <;> contradiction, _, rfl⟩
  · exact .inr ⟨by rintro (h | h | h) <;> contradiction, _, rfl⟩

theorem bindBus_defaultBus {c : Config} (h : c.hostBinding = .defaultBus) (b : BusAccess) :
    bindBus c b = defaultAccess b := by
  simp [bindBus, h]

/-- A bus access is no abstract access in exactly two ways: the default binding refuses it, or a platform's own binding
does not carry it and it changes nothing. -/
theorem bindBus_error_cases {c : Config} {b : BusAccess} {e : DecodeError} (h : bindBus c b = .error e) :
    (c.hostBinding = .defaultBus ∧ (b.width ≠ 32 ∨ b.offset % 4 ≠ 0 ∨ 0x40000 ≤ b.offset) ∧
        ∀ r s, dropAccess e r s = refuseAccess r s) ∨
      (∃ n, c.hostBinding = .platform n ∧ Config.platformAccess n b = none ∧ ∀ r s, dropAccess e r s = s) := by
  cases hb : c.hostBinding with
  | defaultBus =>
    rw [bindBus_defaultBus hb] at h
    rcases defaultAccess_cases b with ⟨hr, e', he, hd⟩ | ⟨-, a, he⟩ <;> rw [he] at h <;> cases h
    exact .inl ⟨rfl, hr, hd⟩
  | platform n =>
    simp only [bindBus, hb] at h
    cases hp : Config.platformAccess n b with
    | some a => rw [hp] at h; cases h
    | none => rw [hp] at h; cases h; exact .inr ⟨n, rfl, hp, fun _ _ => rfl⟩

/-- What the default binding carries is an aligned 32-bit access in the window. -/
theorem bindBus_ok {c : Config} {b : BusAccess} {a : Access} (hc : c.hostBinding = .defaultBus)
    (h : bindBus c b = .ok a) : ¬(b.width ≠ 32 ∨ b.offset % 4 ≠ 0 ∨ 0x40000 ≤ b.offset) := by
  rw [bindBus_defaultBus hc] at h
  rcases defaultAccess_cases b with ⟨-, e, he, -⟩ | ⟨hn, -⟩
  · rw [he] at h; cases h
  · exact hn

/-- Everything a step can do, for whatever is due. -/
inductive StepEffect (s : State) : State → Prop where
  | engineRests {es : List Event} (hd : s.EngineDue) (hr : s.state ≠ .run) : StepEffect s (setPending es s)
  | engine {es : List Event} {t : State} (hd : s.EngineDue) (hr : s.state = .run) (hn : s.np < s.cfg.nodeCount)
      (he : EngineEffect (setPending es s) (nodeAt s s.np) t) : StepEffect s t
  | host {es : List Event} {r : Raw} {i : Instr} {t : State} (hr : r.isHost = true)
      (hp : s.pending = eventOf r :: es) (hd : decode s.cfg r = .ok i) (he : DueEffect (setPending es s) t i) :
      StepEffect s t
  | busDropped {es : List Event} {b : BusAccess} {e : DecodeError} (hp : s.pending = .bus b :: es)
      (hb : bindBus s.cfg b = .error e) : StepEffect s (dropAccess e (Raw.bus b).isRead (setPending es s))
  | rst {es : List Event} (hp : s.pending = .rst :: es) : StepEffect s (resetBlock (setPending es s))
  | powerOn {es : List Event} (hp : s.pending = .powerOn :: es) : StepEffect s (powerOnBlock (setPending es s))
  | stream {es : List Event} {bs : List Bool} (hp : s.pending = .stream bs :: es) :
      StepEffect s (setStream bs (setPending es s))

theorem step_inv {s t : State} (h : step s = .next t) : StepEffect s t := by
  have eng : ∀ es, s.EngineDue → engineTurn (setPending es s) = .next t → StepEffect s t := fun es hd h => by
    rcases engineTurn_inv h with ⟨hr, rfl⟩ | ⟨hr, hn, he⟩
    · exact .engineRests hd hr
    · exact .engine hd hr hn he
  have host : ∀ r es, Raw.isHost r = true → s.pending = eventOf r :: es → hostTurn r (setPending es s) = .next t →
      StepEffect s t := fun r es hr hp h => by
    rcases hostTurn_inv hr h with ⟨i, hd, he⟩ | ⟨b, e, rfl, hb, rfl⟩
    · exact .host hr hp hd he
    · exact .busDropped hp hb
  cases hp : s.pending with
  | nil =>
    rw [step_nil hp] at h
    exact eng s.pending (.inl hp) h
  | cons e es =>
    rw [step_cons hp] at h
    cases e with
    | engine => exact eng es (.inr ⟨es, hp⟩) h
    | command v => exact host (.command v) es rfl hp h
    | access a => exact host (.access a) es rfl hp h
    | bus b => exact host (.bus b) es rfl hp h
    | rst => cases h; exact .rst hp
    | powerOn => cases h; exact .powerOn hp
    | stream bs => cases h; exact .stream hp

/-- When the engine is due in RUN the step is a node word's. -/
theorem engine_step_inv {s t : State} (hr : s.state = .run) (hd : s.EngineDue) (h : step s = .next t) :
    ∃ es, s.np < s.cfg.nodeCount ∧ EngineEffect (setPending es s) (nodeAt s s.np) t := by
  have eng : ∀ es, engineTurn (setPending es s) = .next t →
      ∃ es, s.np < s.cfg.nodeCount ∧ EngineEffect (setPending es s) (nodeAt s s.np) t := fun es h => by
    rcases engineTurn_inv h with ⟨hr', -⟩ | ⟨-, hn, he⟩
    · exact absurd hr hr'
    · exact ⟨es, hn, he⟩
  rcases hd with hp | ⟨es, hp⟩
  · rw [step_nil hp] at h; exact eng s.pending h
  · rw [step_cons hp] at h; exact eng es h

/-- With nothing pending a running engine at an index that exists takes a step. -/
theorem engine_step {s : State} (hr : s.state = .run) (hn : s.np < s.cfg.nodeCount) (hp : s.pending = []) :
    ∃ t, step s = .next t ∧ EngineEffect s (nodeAt s s.np) t := by
  obtain ⟨t, e, he⟩ := node_effect s s.cfg (memRead s s.np)
  refine ⟨t, ?_, he⟩
  rw [step_nil hp]
  rcases engineTurn_cases s with ⟨h, -⟩ | ⟨-, h, -⟩ | ⟨-, -, e'⟩
  · exact absurd hr h
  · omega
  · exact e'.trans e

/-- Whenever the engine is due in RUN at an index that exists, the step is its word's meaning, its turn taken off the
list. -/
theorem engine_due_step {s : State} (hr : s.state = .run) (hn : s.np < s.cfg.nodeCount) (hd : s.EngineDue) :
    step s = exec (nodeAt s s.np) (setPending s.pending.tail s) := by
  have turn_eq : ∀ es, engineTurn (setPending es s) = exec (nodeAt s s.np) (setPending es s) := fun es => by
    rcases engineTurn_cases (setPending es s) with ⟨h, -⟩ | ⟨-, h, -⟩ | ⟨-, -, e⟩
    · exact absurd hr h
    · exact absurd h (Nat.not_le.2 hn)
    · exact e
  rcases hd with hp | ⟨es, hp⟩
  · have hs : setPending s.pending.tail s = s := by rw [hp, List.tail_nil, ← hp]; rfl
    rw [step_nil hp, ← turn_eq, hs]
  · rw [step_cons hp, hp]
    exact turn_eq es

/-- What every node word leaves alone. -/
theorem EngineEffect.keeps {s t : State} {i : Instr} (h : EngineEffect s i t) :
    t.lut = s.lut ∧ t.powerOns = s.powerOns ∧ t.cfg = s.cfg ∧ t.hostErr = s.hostErr ∧ t.returned = s.returned ∧
      t.pending = s.pending := by
  cases h <;> exact ⟨rfl, rfl, rfl, rfl, rfl, rfl⟩

theorem nodeAt_congr {s t : State} (hl : t.lut = s.lut) (hp : t.powerOns = s.powerOns) (hc : t.cfg = s.cfg) :
    nodeAt t = nodeAt s := by
  funext i
  unfold nodeAt
  rw [hc, memRead_congr hl hp]

/-- An event is due that is no host operation's. -/
theorem not_hostDue {s : State} {e : Event} {es : List Event} (hp : s.pending = e :: es)
    (he : ∀ r, Raw.isHost r = true → eventOf r ≠ e) (i : Instr) : ¬s.HostDue i := by
  rintro ⟨r, es', hr, hp', -⟩
  rw [hp] at hp'
  cases hp'
  exact he r hr rfl

theorem not_hostDue_of_engineDue {s : State} (h : s.EngineDue) (i : Instr) : ¬s.HostDue i := by
  rintro ⟨r, es', hr, hp', -⟩
  rcases h with h | ⟨es, h⟩ <;> rw [h] at hp' <;> cases r <;> simp_all [Raw.isHost, eventOf]

/-- At most one instruction is due. -/
theorem hostDue_unique {s : State} {r : Raw} {es : List Event} {i j : Instr} (hr : r.isHost = true)
    (hp : s.pending = eventOf r :: es) (hd : decode s.cfg r = .ok i) (h : s.HostDue j) : j = i := by
  obtain ⟨r', es', hr', hp', hd'⟩ := h
  rw [hp] at hp'
  have : r = r' := by cases r <;> cases r' <;> simp_all [Raw.isHost, eventOf]
  subst this
  rw [hd] at hd'
  cases hd'
  rfl

/-- No host instruction changes what is due after it. -/
theorem DueEffect.pending {s t : State} {i : Instr} (h : DueEffect s t i) : t.pending = s.pending := by
  cases h with
  | start h => rcases execStart_cases s with ⟨-, e⟩ | ⟨-, e⟩ <;> rw [e] at h <;> cases h <;> rfl
  | ctrlStart h => rcases execStart_cases s with ⟨-, e⟩ | ⟨-, e⟩ <;> rw [e] at h <;> cases h <;> rfl
  | clear h => rcases execClear_cases s with ⟨-, e⟩ | ⟨-, e⟩ <;> rw [e] at h <;> cases h <;> rfl
  | ctrlClear h => rcases execClear_cases s with ⟨-, e⟩ | ⟨-, e⟩ <;> rw [e] at h <;> cases h <;> rfl
  | _ => subst_vars; rfl

theorem dropAccess_pending (e : DecodeError) (isRead : Bool) (s : State) :
    (dropAccess e isRead s).pending = s.pending := by
  cases e <;> cases isRead <;> rfl

/-- What a turn of the engine can answer leaves alone what is due after it. -/
theorem engineTurn_pending {s t : State} (h : engineTurn s = .next t) : t.pending = s.pending := by
  rcases engineTurn_inv h with ⟨-, rfl⟩ | ⟨-, -, he⟩
  · rfl
  · exact he.keeps.2.2.2.2.2

/-- Every step takes its own turn off the list, whichever agent's it is, and adds none. -/
theorem step_pending {s t : State} (h : step s = .next t) : t.pending = s.pending.tail := by
  have host : ∀ r es, Raw.isHost r = true → hostTurn r (setPending es s) = .next t → t.pending = es := fun r es hr h => by
    rcases hostTurn_inv hr h with ⟨i, -, he⟩ | ⟨b, e, -, -, rfl⟩
    · exact he.pending
    · exact dropAccess_pending e _ _
  cases hp : s.pending with
  | nil => rw [step_nil hp] at h; exact (engineTurn_pending h).trans hp
  | cons e es =>
    rw [step_cons hp] at h
    cases e with
    | engine => exact engineTurn_pending h
    | command v => exact host (.command v) es rfl h
    | access a => exact host (.access a) es rfl h
    | bus b => exact host (.bus b) es rfl h
    | rst => cases h; rfl
    | powerOn => cases h; rfl
    | stream bs => cases h; rfl

theorem steps_pending {k : Nat} {s t : State} (h : steps k s = .next t) : t.pending = s.pending.drop k := by
  induction k generalizing s with
  | zero => cases h; rfl
  | succ k ih =>
    simp only [steps] at h
    cases hs : step s with
    | next u => rw [hs] at h; rw [ih h, step_pending hs, List.drop_tail]
    | fault r => rw [hs] at h; cases h
    | refused r => rw [hs] at h; cases h

/-- The engine is eventually scheduled: whatever else is due, it is finitely much (70_reset_and_hazards.md R145; log 4). -/
theorem engine_eventually_due (s : State) : s.EngineDueAfter s.pending.length := fun _ h =>
  .inl ((steps_pending h).trans List.drop_length)

theorem steps_succ {s t : State} (h : step s = .next t) (k : Nat) : steps (k + 1) s = steps k t := by
  simp [steps, h]

theorem steps_add {a : Nat} {s t : State} (h : steps a s = .next t) (b : Nat) : steps (a + b) s = steps b t := by
  induction a generalizing s with
  | zero => cases h; simp
  | succ a ih =>
    rw [Nat.succ_add]
    simp only [steps] at h ⊢
    cases hs : step s with
    | next u => rw [hs] at h; exact ih h
    | fault r => rw [hs] at h; cases h
    | refused r => rw [hs] at h; cases h

/-- Outside RUN, with nothing pending, the machine stays as it is (40_node_words.md R66). -/
theorem steps_rest {s : State} (hr : s.state ≠ .run) (hp : s.pending = []) (k : Nat) : steps k s = .next s := by
  induction k with
  | zero => rfl
  | succ k ih => simp [steps, step_nil hp, engineTurn, hr, ih]

end Sys2Proof.Machine
end

