-- ==== Sys2Proof/Laws/Toolchain.lean ====
section
/-! SUPPORT. The laws of the toolchain: what a step of `Insert` does at each kind of word, lines and numbers read back as
they were written, and what the Builder's extraction keeps. -/

namespace Sys2Proof

/-- Decode of `EncodeLeaf` (30_encoding.md R65), as the toolchain uses it. -/
theorem decodeNode_encodeLeaf {c : Config} (hc : c.Ok) {s : Nat} (h : s < 2 ^ c.symW) :
    decodeNode c (encodeLeaf s) = .leaf s := by
  obtain ⟨h1, h30, -, -⟩ := hc
  have hp : 2 ^ c.symW ≤ 2 ^ 30 := Nat.pow_le_pow_right (by omega) h30
  have hn := encodeLeaf_toNat (show s < 2 ^ 30 by omega)
  have hk : kindOf (encodeLeaf s) = 1 := by rw [kindOf_eq, hn]; omega
  have hr : slice (encodeLeaf s) 29 c.symW = 0 := (slice_29_eq_zero _ h30).2 (by rw [hn]; omega)
  have hs : slice (encodeLeaf s) (c.symW - 1) 0 = s := by
    rw [slice_zero _ _ h1, hn, show 2 ^ 30 = 2 ^ c.symW * 2 ^ (30 - c.symW) by rw [← pow_add]; congr 1; omega,
      Nat.mul_add_mod, Nat.mod_eq_of_lt h]
  have h0 : encodeLeaf s ≠ 0 := fun e => by rw [e] at hn; simp at hn; omega
  rcases decodeNode_cases c (encodeLeaf s) with ⟨e, -⟩ | ⟨-, -, -, e⟩ | ⟨-, k, -, -⟩ | ⟨-, k, -, -⟩
  · exact absurd e h0
  · rw [e, hs]
  · omega
  · exact absurd ⟨hk, hr⟩ k

/-- Decode of `EncodeNode` (30_encoding.md R65), as the toolchain uses it. -/
theorem decodeNode_encodeNode {c : Config} (hc : c.Ok) {l r : Nat} (hl : l < c.nodeCount) (hr : r < c.nodeCount) :
    decodeNode c (encodeNode c l r) = .node l r := by
  have hn := encodeNode_toNat hc hl hr
  unfold Config.nodeCount at hl hr
  obtain ⟨-, -, h1, h15⟩ := hc
  have hlr : 2 ^ c.idxW * l + r < 2 ^ (2 * c.idxW) := by
    rw [show 2 * c.idxW = c.idxW + c.idxW by omega, pow_add]; nlinarith
  have hp : 2 ^ (2 * c.idxW) ≤ 2 ^ 30 := Nat.pow_le_pow_right (by omega) (by omega)
  have hk : kindOf (encodeNode c l r) = 2 := by rw [kindOf_eq, hn]; omega
  have hz : slice (encodeNode c l r) 29 (2 * c.idxW) = 0 := (slice_29_eq_zero _ (by omega)).2 (by rw [hn]; omega)
  have e31 : 2 ^ 31 = 2 ^ c.idxW * 2 ^ (31 - c.idxW) := by rw [← pow_add]; congr 1; omega
  have e32 : 2 ^ (31 - c.idxW) = 2 ^ c.idxW * 2 ^ (31 - 2 * c.idxW) := by rw [← pow_add]; congr 1; omega
  have hs : slice (encodeNode c l r) (c.idxW - 1) 0 = r := by
    rw [slice_zero _ _ h1, hn, e31, ← Nat.mul_add, Nat.mul_add_mod, Nat.mod_eq_of_lt hr]
  have hd : slice (encodeNode c l r) (2 * c.idxW - 1) c.idxW = l := by
    simp only [slice, Nat.shiftRight_eq_div_pow]
    rw [hn, e31, ← Nat.mul_add, Nat.mul_add_div (by positivity), Nat.div_eq_of_lt hr, Nat.add_zero, e32,
      show 2 * c.idxW - 1 + 1 - c.idxW = c.idxW by omega, Nat.mul_add_mod, Nat.mod_eq_of_lt hl]
  have h0 : encodeNode c l r ≠ 0 := fun e => by rw [e] at hn; simp at hn; omega
  rcases decodeNode_cases c (encodeNode c l r) with ⟨e, -⟩ | ⟨-, k, -, -⟩ | ⟨-, -, -, e⟩ | ⟨-, -, k, -⟩
  · exact absurd e h0
  · omega
  · rw [e, hs, hd]
  · exact absurd ⟨hk, hz⟩ k

end Sys2Proof

namespace Sys2Proof.Toolchain

open Sys2Proof.Machine

/-- `Insert`'s walk goes along a path that is there as any walk does (45_toolchain.md R98). -/
theorem insertWalk_of_walkCode {c : Config} {img : Image} {p q : Nat} {code more : Code}
    (h : walkCode (img.nodeAt c) p code = some q) :
    insertWalk c img p (code ++ more) = insertWalk c img q more := by
  induction code generalizing p with
  | nil => cases h; rfl
  | cons b code ih =>
    obtain ⟨l, r, hk, h0, hq⟩ := walkCode_cons.1 h
    simp only [List.cons_append, insertWalk, insertStep, hk, childFields]
    rw [if_pos h0]
    exact ih hq

/-- The line of some bytes and a line feed: what the reader makes of it, and where it goes on (45_toolchain.md R93). -/
theorem linesFrom_append {xs : List Byte} (h : ∀ b ∈ xs, b ≠ 0x0A#8) (cur rest : List Byte) :
    linesFrom cur (xs ++ 0x0A#8 :: rest) = (dropReturn (xs.reverse ++ cur)).reverse :: linesFrom [] rest := by
  induction xs generalizing cur with
  | nil => simp [linesFrom]
  | cons b xs ih =>
    simp only [List.cons_append, linesFrom]
    rw [if_neg (h b (by simp)), ih (fun b' hb => h b' (by simp [hb]))]
    simp

/-- A line without line feeds and carriage returns is read as it stands. -/
theorem lines_line {xs : List Byte} (h : ∀ b ∈ xs, b ≠ 0x0A#8 ∧ b ≠ 0x0D#8) (rest : List Byte) :
    lines (xs ++ 0x0A#8 :: rest) = xs :: lines rest := by
  have hd : dropReturn (xs.reverse ++ []) = xs.reverse := by
    rw [List.append_nil]
    cases hx : xs.reverse with
    | nil => rfl
    | cons b ys =>
      have : b ∈ xs := List.mem_reverse.1 (by rw [hx]; simp)
      simp only [dropReturn]
      rw [if_neg (h b this).2]
  rw [lines, linesFrom_append (fun b hb => (h b hb).1), hd, List.reverse_reverse, lines]

/-- A byte that is a decimal digit. -/
abbrev IsDigit (b : Byte) : Prop := 0x30 ≤ b.toNat ∧ b.toNat ≤ 0x39

theorem digitByte_isDigit {n : Nat} (h : n < 10) : IsDigit (BitVec.ofNat 8 (0x30 + n)) := by
  simp only [IsDigit, BitVec.toNat_ofNat]
  omega

theorem digitValue_digitByte {n : Nat} (h : n < 10) : digitValue (BitVec.ofNat 8 (0x30 + n)) = some n := by
  have := digitByte_isDigit h
  rw [digitValue, if_pos this]
  simp only [BitVec.toNat_ofNat]
  congr 1
  omega

theorem decimalFrom_digits {fuel n : Nat} (h : n < fuel) {acc : List Byte} (ha : ∀ b ∈ acc, IsDigit b) :
    ∀ b ∈ decimalFrom fuel n acc, IsDigit b := by
  induction fuel generalizing n acc with
  | zero => omega
  | succ fuel ih =>
    simp only [decimalFrom]
    split_ifs with h10
    · simpa using ⟨digitByte_isDigit h10, ha⟩
    · exact ih (by omega) (by simpa using ⟨digitByte_isDigit (by omega), ha⟩)

theorem decimalFrom_ne_nil {fuel n : Nat} (h : n < fuel) (acc : List Byte) : decimalFrom fuel n acc ≠ [] := by
  induction fuel generalizing n acc with
  | zero => omega
  | succ fuel ih =>
    simp only [decimalFrom]
    split_ifs with h10
    · simp
    · exact ih (by omega) _

theorem digitsFrom_decimalFrom {fuel n : Nat} (h : n < fuel) (acc : List Byte) :
    digitsFrom 0 (decimalFrom fuel n acc) = digitsFrom n acc := by
  induction fuel generalizing n acc with
  | zero => omega
  | succ fuel ih =>
    simp only [decimalFrom]
    split_ifs with h10
    · simp [digitsFrom, digitValue_digitByte h10]
    · rw [ih (by omega), digitsFrom, digitValue_digitByte (by omega)]
      simp only
      congr 1
      omega

/-- A number reads back as it was written (45_toolchain.md R92, R94). -/
theorem readSymbol_decimal (n : Nat) : readSymbol (decimal n) = some (n : Int) := by
  have hd : ∀ b ∈ decimal n, IsDigit b := decimalFrom_digits (Nat.lt_succ_self n) (by simp)
  have hr : readDigits (decimal n) = some n := by
    have hne : decimal n ≠ [] := decimalFrom_ne_nil (Nat.lt_succ_self n) []
    rw [readDigits, if_neg (by simpa using hne), decimal, digitsFrom_decimalFrom (Nat.lt_succ_self n)]
    rfl
  cases hx : decimal n with
  | nil => exact absurd hx (decimalFrom_ne_nil (Nat.lt_succ_self n) [])
  | cons b rest =>
    have : b ≠ 0x2D#8 := by
      rintro rfl
      have := hd 0x2D#8 (by rw [hx]; simp)
      exact absurd this.1 (by decide)
    rw [readSymbol, if_neg this, ← hx, hr]
    rfl

/-- A Code reads back as it was written (45_toolchain.md R92, R95). -/
theorem readCode_codeText (code : Code) : readCode (codeText code) = some code := by
  induction code with
  | nil => rfl
  | cons b code ih =>
    rw [codeText] at ih
    cases b <;> simp [codeText, readCode, ih]

theorem decimal_plain (n : Nat) : ∀ b ∈ decimal n, b ≠ 0x0A#8 ∧ b ≠ 0x0D#8 := fun b hb => by
  have := decimalFrom_digits (Nat.lt_succ_self n) (by simp) b hb
  constructor <;> rintro rfl <;> exact absurd this.1 (by decide)

theorem codeText_plain (code : Code) : ∀ b ∈ codeText code, b ≠ 0x0A#8 ∧ b ≠ 0x0D#8 := fun b hb => by
  obtain ⟨x, -, rfl⟩ := List.mem_map.1 hb
  cases x <;> decide

/-- Extraction takes one node out of the collection and keeps the rest (45_toolchain.md R106). -/
theorem extractMin_perm (a : Weighted) (rest : List Weighted) :
    ((extractMin a rest).1 :: (extractMin a rest).2).Perm (a :: rest) := by
  induction rest generalizing a with
  | nil => exact .refl _
  | cons b rest ih =>
    simp only [extractMin]
    split_ifs
    · exact (List.Perm.swap _ _ _).trans ((ih b).cons a)
    · exact (List.Perm.swap _ _ _).trans (((ih a).cons b).trans (List.Perm.swap _ _ _))

theorem insertBySymbol_perm (e : Nat × Nat) (fs : FreqTable) : (insertBySymbol e fs).Perm (e :: fs) := by
  induction fs with
  | nil => exact .refl _
  | cons f fs ih =>
    simp only [insertBySymbol]
    split_ifs
    · exact .refl _
    · exact (ih.cons f).trans (List.Perm.swap _ _ _)

/-- The entries that take part are those with a positive count (45_toolchain.md R106). -/
theorem alphabet_perm (fs : FreqTable) : (alphabet fs).Perm (fs.filter fun e => 0 < e.2) := by
  induction fs with
  | nil => exact .refl _
  | cons e fs ih =>
    simp only [alphabet]
    split_ifs with h
    · rwa [List.filter_cons_of_neg (by simp [h])]
    · rw [List.filter_cons_of_pos (by simp; omega)]
      exact (insertBySymbol_perm _ _).trans (ih.cons e)

/-- A path in front of a tree's pairs stands in front of each Code. -/
theorem CodeTree.pairsFrom_symbols (t : CodeTree) (path path' : Code) :
    (t.pairsFrom path).map (fun sc => sc.1) = (t.pairsFrom path').map (fun sc => sc.1) := by
  induction t generalizing path path' with
  | leaf s => rfl
  | node l r ihl ihr => simp [CodeTree.pairsFrom, ihl (path ++ [false]) (path' ++ [false]),
      ihr (path ++ [true]) (path' ++ [true])]

end Sys2Proof.Toolchain
end

