-- ==== Sys2Proof/Machine/Listing.lean ====
section
/-! DEFINITION. The node listing and the host program as text (spec 30_encoding.md R63, R64): one line per LUT entry or per
host operation, numbers decimal unless they begin with `0x`. -/

namespace Sys2Proof.Toolchain

open Sys2Proof.Machine

/-- The bytes of ASCII characters. -/
def ascii (cs : List Char) : List Byte := cs.map fun ch => BitVec.ofNat 8 ch.toNat

/-- The value of a hexadecimal digit, of either case. -/
def hexValue (b : Byte) : Option Nat :=
  if 0x30 ≤ b.toNat ∧ b.toNat ≤ 0x39 then some (b.toNat - 0x30)
  else if 0x41 ≤ b.toNat ∧ b.toNat ≤ 0x46 then some (b.toNat - 0x41 + 10)
  else if 0x61 ≤ b.toNat ∧ b.toNat ≤ 0x66 then some (b.toNat - 0x61 + 10)
  else none

/-- The value of hexadecimal digits after a value already read. -/
def hexFrom (acc : Nat) : List Byte → Option Nat
  | [] => some acc
  | b :: rest =>
    match hexValue b with
    | some d => hexFrom (16 * acc + d) rest
    | none => none

/-- "decimal numbers unless prefixed `0x`" (30_encoding.md R63). -/
def readNumber (word : List Byte) : Option Nat :=
  match word with
  | b :: c :: d :: rest => if b = 0x30#8 ∧ c = 0x78#8 then hexFrom 0 (d :: rest) else readDigits word
  | _ => readDigits word

/-- A 32-bit number. -/
def readWord (word : List Byte) : Option Word :=
  match readNumber word with
  | some n => if n < 2 ^ 32 then some (BitVec.ofNat 32 n) else none
  | none => none

/-- The parts of a line between spaces, the current part held reversed. -/
def partsFrom : List Byte → List Byte → List (List Byte)
  | cur, [] => if cur.isEmpty then [] else [cur.reverse]
  | cur, b :: rest =>
    if b = 0x20#8 then
      if cur.isEmpty then partsFrom [] rest else cur.reverse :: partsFrom [] rest
    else partsFrom (b :: cur) rest

/-- The parts of a line between spaces (log 26). -/
def parts (line : List Byte) : List (List Byte) := partsFrom [] line

/-- A part that ends in the given mark, without it. -/
def withoutMark (mark : Byte) (part : List Byte) : Option (List Byte) :=
  if part.getLast? = some mark then some part.dropLast else none

/-- The item of a listing line (30_encoding.md R63); its operands are in the ranges of the encoding functions (R65). -/
def readItem (c : Config) (ps : List (List Byte)) : Option ListingItem :=
  match ps with
  | [m] => if m = ascii ['E', 'M', 'P', 'T', 'Y'] then some .empty else none
  | [m, x] =>
    if m = ascii ['L', 'E', 'A', 'F'] then
      (readNumber x).bind fun s => if s < 2 ^ c.symW then some (.leaf s) else none
    else if m = ascii ['.', 'w', 'o', 'r', 'd'] then (readWord x).map .word
    else none
  | [m, x, y] =>
    if m = ascii ['N', 'O', 'D', 'E'] then
      ((withoutMark 0x2C#8 x).bind readNumber).bind fun l =>
        (readNumber y).bind fun r => if l < c.nodeCount ∧ r < c.nodeCount then some (.node l r) else none
    else none
  | _ => none

/-- A listing line, `<index>: <mnemonic> <operands>` (30_encoding.md R63). -/
def readListingLine (c : Config) (line : List Byte) : Option (Nat × ListingItem) :=
  match parts line with
  | i :: ps =>
    ((withoutMark 0x3A#8 i).bind readNumber).bind fun n =>
      (readItem c ps).bind fun item => if n < c.nodeCount then some (n, item) else none
  | [] => none

/-- A line read by every line, or no value if one cannot be read. -/
def readAll {α : Type} (read : List Byte → Option α) : List (List Byte) → Option (List α)
  | [] => some []
  | line :: rest => (read line).bind fun x => (readAll read rest).map (x :: ·)

/-- A node listing to the image it stands for (30_encoding.md R63). DESIGN CHOICE (log 29): its lines end as those of the
code-table text do (45_toolchain.md R93), which R63 leaves open; log 28 for an index that stands on two lines. -/
def assembleText (c : Config) (text : List Byte) : Option Memory :=
  (readAll (readListingLine c) (lines text)).map (assemble c)

/-- A host operation by its mnemonic (30_encoding.md R64). DESIGN CHOICE (log 31): a `LOAD` line is not read, because R64
does not say how `<image>` is written in a program line; LOAD is the function `load`. -/
def readOperation (line : List Byte) : Option Instr :=
  match parts line with
  | [m] =>
    if m = ascii ['N', 'O', 'P'] then some .nop
    else if m = ascii ['S', 'T', 'A', 'R', 'T'] then some .start
    else if m = ascii ['C', 'L', 'E', 'A', 'R'] then some .clear
    else none
  | [m, x] =>
    if m = ascii ['C', 'S', 'R', 'R', 'D'] then (readNumber x).map .csrrd
    else if m = ascii ['L', 'U', 'T', 'R', 'D'] then (readNumber x).map .lutrd
    else none
  | [m, x, y] =>
    ((withoutMark 0x2C#8 x).bind readNumber).bind fun n =>
      (readWord y).bind fun v =>
        if m = ascii ['C', 'S', 'R', 'W', 'R'] then some (.csrwr n v)
        else if m = ascii ['L', 'U', 'T', 'W', 'R'] then some (.lutwr n v)
        else none
  | _ => none

/-- A host program, one operation per line, as the turns of the host (30_encoding.md R64). DESIGN CHOICE (log 29): its
lines end as those of the code-table text do (45_toolchain.md R93), which R64 leaves open. -/
def hostProgram (c : Config) (text : List Byte) : Option (List Event) :=
  (readAll readOperation (lines text)).map fun is => is.map fun i => eventOf (encode c i)

/-- The listing item of a word: its mnemonic, or the word verbatim where it is illegal (30_encoding.md R63). -/
def listingItem (c : Config) (w : Word) : ListingItem :=
  match decodeNode c w with
  | .empty => .empty
  | .leaf s => .leaf s
  | .node l r => .node l r
  | _ => .word w

/-- A listing item as text (30_encoding.md R63). -/
def writeItem : ListingItem → List Byte
  | .empty => ascii ['E', 'M', 'P', 'T', 'Y']
  | .leaf s => ascii ['L', 'E', 'A', 'F', ' '] ++ decimal s
  | .node l r => ascii ['N', 'O', 'D', 'E', ' '] ++ decimal l ++ ascii [',', ' '] ++ decimal r
  | .word w => ascii ['.', 'w', 'o', 'r', 'd', ' '] ++ decimal w.toNat

/-- An image as a node listing, in ascending order of index (30_encoding.md R63). -/
def listingText (c : Config) : Memory → List Byte
  | [] => []
  | (i, w) :: rest =>
    decimal i ++ ascii [':', ' '] ++ writeItem (listingItem c w) ++ [0x0A#8] ++ listingText c rest

end Sys2Proof.Toolchain
end

