-- ==== Sys2Proof/Tests/Slice0.lean ====
section
/-! SUPPORT. Tests: ill-formed terms refused, words written out from the spec's encodings, single steps from the vectors of
spec 95_test_vectors.md, and a concrete state and operands that meet the hypotheses of each statement. -/

namespace Sys2Proof.Tests

open Sys2Proof Sys2Proof.Machine Sys2Proof.Toolchain

/-! ## WellFormed refuses -/

theorem test_leaf_symbol_too_wide : WellFormed Config.default (.leaf 65536) = false := by decide
theorem test_node_left_too_wide : WellFormed Config.default (.node 4096 0) = false := by decide
theorem test_node_right_too_wide : WellFormed Config.default (.node 0 4096) = false := by decide
theorem test_illegal_of_empty_word : WellFormed Config.default (.illegal 0x00000000#32) = false := by decide
theorem test_illegal_of_leaf_word : WellFormed Config.default (.illegal 0x4000FFFF#32) = false := by decide
theorem test_illegal_of_node_word : WellFormed Config.default (.illegal 0x80FFFFFF#32) = false := by decide
theorem test_reserved_of_clear : WellFormed Config.default (.reservedCmd 0x00000002#32) = false := by decide

/-! ## Decoding, from words written out by the spec's formats (30_encoding.md R51, R55, R58; 95_test_vectors.md 2.1) -/

theorem test_decode_empty :
    decode Config.default (.node 0b00_000000000000000000000000000000#32) = .ok .empty := by decide
theorem test_decode_leaf :
    decode Config.default (.node 0b01_00000000000000_0000000001100110#32) = .ok (.leaf 102) := by decide
theorem test_decode_leaf_largest :
    decode Config.default (.node 0b01_00000000000000_1111111111111111#32) = .ok (.leaf 65535) := by decide
theorem test_decode_node :
    decode Config.default (.node 0b10_000000_000000000111_000000001010#32) = .ok (.node 7 10) := by decide
theorem test_decode_node_largest :
    decode Config.default (.node 0b10_000000_111111111111_111111111111#32) = .ok (.node 4095 4095) := by decide
theorem test_decode_illegal_kind_11 :
    decode Config.default (.node 0b11_000000000000000000000000000000#32) = .ok (.illegal 0xC0000000#32) := by decide
theorem test_decode_illegal_kind_00 :
    decode Config.default (.node 0b00_000000000000000000000000000001#32) = .ok (.illegal 0x00000001#32) := by decide
theorem test_decode_illegal_leaf_reserved :
    decode Config.default (.node 0b01_00000000000001_0000000001000001#32) = .ok (.illegal 0x40010041#32) := by decide
theorem test_decode_illegal_node_reserved :
    decode Config.default (.node 0b10_000001_000000000001_000000000010#32) = .ok (.illegal 0x81001002#32) := by decide
theorem test_decode_nop :
    decode Config.default (.command 0b00000000000000000000000000000000#32) = .ok .nop := by decide
theorem test_decode_start :
    decode Config.default (.command 0b00000000000000000000000000000001#32) = .ok .start := by decide
theorem test_decode_clear :
    decode Config.default (.command 0b00000000000000000000000000000010#32) = .ok .clear := by decide
theorem test_decode_reserved_cmd :
    decode Config.default (.command 0b10000000000000000000000000000010#32) =
      .ok (.reservedCmd 0x80000002#32) := by decide
/-- A 32-bit read of offset 0x00004 is CSRRD 1 (95_test_vectors.md 2.3). -/
theorem test_decode_csrrd : decode Config.default (.bus ⟨0b000000000000000100, 32, none⟩) = .ok (.csrrd 1) := by decide
/-- A 32-bit write of 1 to offset 0x00000 is CSRWR 0, 1, which is START. -/
theorem test_decode_csrwr :
    decode Config.default (.bus ⟨0b000000000000000000, 32, some 0x00000001#32⟩) = .ok (.csrwr 0 0x00000001#32) := by decide
/-- A 32-bit read of offset 0x20028 is LUTRD 10. -/
theorem test_decode_lutrd : decode Config.default (.bus ⟨0b100000000000101000, 32, none⟩) = .ok (.lutrd 10) := by decide
/-- A 32-bit write to offset 0x20000 is LUTWR 0. -/
theorem test_decode_lutwr :
    decode Config.default (.bus ⟨0b100000000000000000, 32, some 0x80001002#32⟩) = .ok (.lutwr 0 0x80001002#32) := by decide
theorem test_bus_refuses_by_name :
    decode Config.default (.bus ⟨0x00004, 16, none⟩) = .error .notWholeWord ∧
    decode Config.default (.bus ⟨0x20002, 32, some 0#32⟩) = .error .misaligned ∧
    decode Config.default (.bus ⟨0x40000, 32, none⟩) = .error .outsideWindow := by decide
/-- 95_test_vectors.md 2.1, the encoding functions. -/
theorem test_encode :
    encodeLeaf 97 = 0x40000061#32 ∧ encodeNode Config.default 8 9 = 0x80008009#32 ∧
    encodeNode Config.default 4095 0 = 0x80FFF000#32 ∧ configWord Config.default = 0x00000C10#32 := by decide

/-! ## Single steps (95_test_vectors.md 2.2 to 2.4) -/

/-- The image of 95_test_vectors.md 3.1. -/
def p1 : Memory :=
  [(0, 0x80001002#32), (1, 0x40000066#32), (2, 0x80003006#32), (3, 0x80004005#32), (4, 0x40000063#32),
    (5, 0x40000064#32)] ++
  [(6, 0x8000700A#32), (7, 0x80008009#32), (8, 0x40000061#32), (9, 0x40000062#32), (10, 0x40000065#32)]

/-- A state with the image of 3.1, in the given STATE, CAUSE, NP and HOSTERR. -/
def at31 (r : RunState) (c : Cause) (np : Nat) (he : Bool) : State :=
  { State.reset with lut := p1, state := r, cause := c, np := np, hostErr := he }

/-- A running engine whose fetched word and bits are given. -/
def fetching (np : Nat) (w : Word) (bits : List Bool) : State :=
  { State.reset with lut := [(np, w)], state := .run, np := np, bits := bits }

/-- STATE, CAUSE, NP, HOSTERR after a step, with the bits left and the symbols. -/
structure View where
  state : RunState
  cause : Cause
  np : Nat
  hostErr : Bool
  bits : List Bool
  out : List Nat
deriving DecidableEq, Repr

/-- What is shown of a next state. -/
def view (o : Host.Outcome State Fault Refusal) : Option View :=
  match o with
  | .next t => some ⟨t.state, t.cause, t.np, t.hostErr, t.bits, t.out⟩
  | _ => none

/-- STATUS after a step and the values host reads have returned. -/
def reads (o : Host.Outcome State Fault Refusal) : Option (Word × List Word) :=
  match o with
  | .next t => some (t.statusWord, t.returned)
  | _ => none

/-- The entry of the LUT after a step, where one is written. -/
def entry (o : Host.Outcome State Fault Refusal) (i : Nat) : Option Word :=
  match o with
  | .next t => Memory.read? t.lut i
  | _ => none

/-- A step with one event due. -/
def due (e : Event) (s : State) : Host.Outcome State Fault Refusal := step (setPending [e] s)

theorem test_leaf_below_root : view (step (fetching 4 0x40000063#32 [true, true, true])) =
    some ⟨.run, .none, 0, false, [true, true, true], [99]⟩ := by decide
theorem test_leaf_at_root : view (step (fetching 0 0x40000078#32 [])) =
    some ⟨.done, .none, 0, false, [], [120]⟩ := by decide
theorem test_node_goes_right : view (step (fetching 0 0x80001002#32 [true, false])) =
    some ⟨.run, .none, 2, false, [false], []⟩ := by decide
theorem test_node_null_child : view (step (fetching 2 0x80003000#32 [true, false])) =
    some ⟨.fault, .nullChild, 2, false, [false], []⟩ := by decide
theorem test_empty_without_bits : view (step (fetching 0 0x00000000#32 [])) =
    some ⟨.fault, .emptyNode, 0, false, [], []⟩ := by decide
theorem test_empty_below_root : view (step (fetching 7 0x00000000#32 [true])) =
    some ⟨.fault, .emptyNode, 7, false, [true], []⟩ := by decide
theorem test_illegal_below_root : view (step (fetching 1 0x40010041#32 [])) =
    some ⟨.fault, .illegalNode, 1, false, [], []⟩ := by decide
theorem test_illegal_takes_no_bit : view (step (fetching 0 0x81001002#32 [false])) =
    some ⟨.fault, .illegalNode, 0, false, [false], []⟩ := by decide
theorem test_nop_keeps_hosterr : view (due (.command 0x00000000#32) (at31 .idle .none 0 true)) =
    some ⟨.idle, .none, 0, true, [], []⟩ := by decide
theorem test_start_refused_in_run : view (due (.command 0x00000001#32) (at31 .run .none 7 false)) =
    some ⟨.run, .none, 7, true, [], []⟩ := by decide
theorem test_start_status : reads (due (.command 0x00000001#32) (at31 .idle .none 0 false)) =
    some (0x00000001#32, []) := by decide
theorem test_clear_leaves_fault : view (due (.command 0x00000002#32) (at31 .fault .truncated 6 true)) =
    some ⟨.idle, .none, 0, false, [], []⟩ := by decide
theorem test_clear_refused_in_run : view (due (.command 0x00000002#32) (at31 .run .none 1 false)) =
    some ⟨.run, .none, 1, true, [], []⟩ := by decide
theorem test_reserved_command : view (due (.command 0x00000003#32) (at31 .idle .none 0 false)) =
    some ⟨.idle, .none, 0, true, [], []⟩ := by decide
theorem test_csrwr_high_bit_is_no_clear :
    reads (due (.access ⟨.csr, 0, some 0x80000002#32⟩) (at31 .fault .nullChild 2 false)) =
      some (0x00000133#32, []) := by decide
theorem test_csrwr_np_is_read_only :
    view (due (.access ⟨.csr, 2, some 0x00000005#32⟩) (at31 .idle .none 0 false)) =
      some ⟨.idle, .none, 0, true, [], []⟩ := by decide
theorem test_csrrd_status : reads (due (.access ⟨.csr, 1, none⟩) (at31 .fault .truncated 6 false)) =
    some (0x00000013#32, [0x00000013#32]) := by decide
theorem test_csrrd_absent : reads (due (.access ⟨.csr, 4, none⟩) (at31 .idle .none 0 false)) =
    some (0x00000100#32, [0x00000000#32]) := by decide
theorem test_lutrd_in_run : reads (due (.access ⟨.lut, 6, none⟩) (at31 .run .none 1 false)) =
    some (0x00000001#32, [0x8000700A#32]) := by decide
theorem test_lutrd_out_of_range : reads (due (.access ⟨.lut, 5000, none⟩) (at31 .idle .none 0 false)) =
    some (0x00000100#32, [0x00000000#32]) := by decide
theorem test_lutwr_refused_in_run :
    entry (due (.access ⟨.lut, 1, some 0x40000001#32⟩) (at31 .run .none 1 false)) 1 = some 0x40000066#32 := by decide
theorem test_lutwr_in_fault :
    entry (due (.access ⟨.lut, 5, some 0x40000041#32⟩) (at31 .fault .illegalNode 5 false)) 5 =
      some 0x40000041#32 := by decide
theorem test_reset_abandons_the_run :
    view (due .rst { at31 .run .none 7 true with out := [102], bits := [true, false, false] }) =
      some ⟨.idle, .none, 0, false, [true, false, false], [102]⟩ ∧
    entry (due .rst (at31 .run .none 7 true)) 6 = some 0x8000700A#32 := by decide
/-- V-R3: an entry not written since power-on reads the same unknown word twice. -/
theorem test_power_on_word_is_stable :
    reads (due (.access ⟨.lut, 9, none⟩) { State.reset with returned := [Config.powerOnWord 0 9] }) =
      some (0x00000000#32, [Config.powerOnWord 0 9, Config.powerOnWord 0 9]) := rfl
/-- 95_test_vectors.md 2.3: index 4096 by the bus binding. -/
theorem test_bus_read_beyond_the_lut : reads (due (.bus ⟨0x24000, 32, none⟩) (at31 .idle .none 0 false)) =
    some (0x00000100#32, [0x00000000#32]) := by decide
theorem test_bus_narrow_read : reads (due (.bus ⟨0x00004, 16, none⟩) (at31 .run .none 1 false)) =
    some (0x00000101#32, [0x00000000#32]) := by decide

/-! ## The host's check: table words and where the next instruction is placed -/

theorem test_table_words :
    decodeTableWord 32 0x40000066 = some (.leaf 102) ∧ decodeTableWord 32 0x80001002 = some (.node 1 2) ∧
    decodeTableWord 32 1 = some .start ∧ decodeTableWord 24 0x4 = some (.csrrd 1) ∧
    decodeTableWord 24 0x20028 = some (.lutrd 10) := by decide
theorem test_withFetchWord_runs_leaf : view (step (State.reset.withFetchWord 32 0x40000078)) =
    some ⟨.done, .none, 0, false, [], [120]⟩ := by decide
theorem test_withFetchWord_runs_start : view (step (State.reset.withFetchWord 32 1)) =
    some ⟨.run, .none, 0, false, [], []⟩ := by decide
theorem test_withFetchWord_runs_csrrd : reads (step (State.reset.withFetchWord 24 0xC)) =
    some (0x00000000#32, [0x00000C10#32]) := by decide

/-! ## The toolchain (95_test_vectors.md 1, 2.5, 3) -/

/-- The pairs of 95_test_vectors.md 1.1. -/
def p1Pairs : List (Nat × Code) :=
  [(102, [false]), (99, [true, false, false]), (100, [true, false, true]), (97, [true, true, false, false]),
    (98, [true, true, false, true]), (101, [true, true, true])]

/-- The frequencies of 95_test_vectors.md 1.3. -/
def p1Freqs : FreqTable := [(97, 5), (98, 9), (99, 12), (100, 13), (101, 16), (102, 45)]

/-- The pairs a table builds to. -/
def built (freqs : FreqTable) : Option (List (Nat × Code)) := (build freqs).toOption.map CodeTree.pairs

theorem test_build_classic : built p1Freqs = some p1Pairs := by decide
theorem test_weighted_length_is_224 : weightedLength p1Freqs p1Pairs = 224 := by decide
theorem test_build_ties : built [(1, 1), (2, 1), (3, 2)] =
    some [(3, [false]), (1, [true, false]), (2, [true, true])] := by decide
theorem test_build_single : built [(120, 7)] = some [(120, [])] := by decide
theorem test_build_empty : build [(5, 0)] = .error .emptyAlphabet := by decide
theorem test_deserialize_classic :
    deserialize Config.default (p1Pairs.map fun sc => ((sc.1 : Int), sc.2)) = .ok ⟨p1, 11⟩ := by decide
theorem test_serialize_classic : serialize Config.default ⟨p1, 11⟩ = .ok p1Pairs := by decide
theorem test_serialize_empty_root : serialize Config.default Image.initial = .error .invalidTree := by decide
theorem test_insert_step_by_step :
    deserialize Config.default [(65, [false]), (66, [true, false])] =
      .ok ⟨[(0, 0x80001002#32), (1, 0x40000041#32), (2, 0x80003000#32), (3, 0x40000042#32)], 4⟩ := by decide
theorem test_conflicts :
    deserialize Config.default [(1, [false]), (2, [false, true])] = .error .codeConflict ∧
    deserialize Config.default [(1, [false, true]), (2, [false])] = .error .codeConflict ∧
    deserialize Config.default [(1, [false]), (2, [false])] = .error .codeConflict := by decide
theorem test_text_of_an_empty_code :
    deserializeText Config.default [0x36#8, 0x35#8, 0x0A#8, 0x0A#8] = .ok ⟨[(0, 0x40000041#32)], 1⟩ := by decide
theorem test_text_with_returns : lines [0x36#8, 0x35#8, 0x0D#8, 0x0A#8, 0x30#8, 0x0D#8, 0x0A#8] =
    [[0x36#8, 0x35#8], [0x30#8]] := by decide
theorem test_text_odd : deserializeText Config.default [0x36#8, 0x35#8, 0x0A#8] = .error .malformedCode := by decide
/-- "65\n0\n66\n12\n": 95_test_vectors.md 1.7. -/
theorem test_text_malformed :
    deserializeText Config.default [0x36#8, 0x35#8, 0x0A#8, 0x30#8, 0x0A#8, 0x36#8, 0x36#8, 0x0A#8, 0x31#8, 0x32#8,
      0x0A#8] = .error .malformedCode := by decide
theorem test_symbol_lines :
    readSymbol [0x30#8, 0x36#8, 0x35#8] = some 65 ∧ readSymbol [0x2D#8, 0x31#8] = some (-1) ∧
    readSymbol [0x2B#8, 0x36#8, 0x35#8] = none ∧ readSymbol [] = none := by decide
/-- `31 32 30 0A 0A`: 95_test_vectors.md 1.5. -/
theorem test_text_written : writePairs [(120, [])] = [0x31#8, 0x32#8, 0x30#8, 0x0A#8, 0x0A#8] := by decide
theorem test_load : load [(0, 0x40000078#32)] = [.access ⟨.lut, 0, some 0x40000078#32⟩] := by decide
theorem test_listing : assemble Config.default [(1, .leaf 65), (0, .node 1 2), (2, .word 0x40010041#32)] =
    [(0, 0x80001002#32), (1, 0x40000041#32), (2, 0x40010041#32)] := by decide

/-- The listing of 95_test_vectors.md 2.5, with an illegal word as in 3.7. -/
theorem test_listing_text :
    assembleText Config.default
      (ascii ['0', ':', ' ', 'N', 'O', 'D', 'E', ' ', '1', ',', ' ', '2', '\n', ' ', '1', ':', ' ', 'L', 'E', 'A', 'F', ' ',
        '6', '5', '\n'] ++
      ascii ['2', ':', ' ', '.', 'w', 'o', 'r', 'd', ' ', '0', 'x', '4', '0', '0', '1', '0', '0', '4', '1', '\n']) =
      some [(0, 0x80001002#32), (1, 0x40000041#32), (2, 0x40010041#32)] := by decide
theorem test_listing_written :
    listingText Config.default [(7, 0x80003000#32)] =
      ascii ['7', ':', ' ', 'N', 'O', 'D', 'E', ' ', '3', ',', ' ', '0', '\n'] := by decide
theorem test_host_program :
    hostProgram Config.default
      (ascii ['C', 'S', 'R', 'W', 'R', ' ', '0', ',', ' ', '3', '\n', 'S', 'T', 'A', 'R', 'T', '\n']) =
      some [.access ⟨.csr, 0, some 0x00000003#32⟩, .command 0x00000001#32] := by decide

/-! ## Witnesses: a concrete state and operands that meet the hypotheses of each statement, clause by clause -/

/-- The invariant of a concrete state, as one decidable fact. -/
theorem inv_of {s : State}
    (h : s.cfg.Ok ∧ Memory.wf s.lut ∧ (∀ e ∈ s.lut, e.1 < s.cfg.nodeCount) ∧ s.np < s.cfg.nodeCount ∧
      (s.state = .idle ∨ s.state = .done → s.np = 0) ∧ (s.cause ≠ .none ↔ s.state = .fault) ∧
      ∀ x ∈ s.out, x < 2 ^ s.cfg.symW) : s.Inv :=
  ⟨h.1, h.2.1, h.2.2.1, h.2.2.2.1, h.2.2.2.2.1, h.2.2.2.2.2.1, h.2.2.2.2.2.2⟩

/-- A running state on the image of 95_test_vectors.md 3.1, nothing pending. -/
def run31 (np : Nat) (bits : List Bool) : State := { at31 .run .none np false with bits := bits }

theorem witness_DecodeOfEncodeIsTheInstruction :
    Config.default.Ok ∧ WellFormed Config.default (.leaf 65535) = true ∧
    WellFormed Config.default (.node 4095 4095) = true ∧ WellFormed Config.default (.illegal 0xC0000000#32) = true ∧
    WellFormed Config.default (.reservedCmd 0x00000003#32) = true ∧
    (⟨30, 15, .platform 0⟩ : Config).Ok ∧ WellFormed ⟨30, 15, .platform 0⟩ (.node 32767 32767) = true ∧
    (⟨1, 1, .defaultBus⟩ : Config).Ok ∧ WellFormed ⟨1, 1, .defaultBus⟩ (.leaf 1) = true := by decide

theorem witness_EncodeOfDecodeIsTheNodeWord : Config.default.Ok ∧ (⟨1, 15, .defaultBus⟩ : Config).Ok := by decide

theorem witness_IllegalWordsAreTheFourCases :
    Config.default.Ok ∧ decodeNode Config.default 0xFFFFFFFF#32 = .illegal 0xFFFFFFFF#32 ∧
    decodeNode Config.default 0x3FFFFFFF#32 = .illegal 0x3FFFFFFF#32 ∧
    decodeNode Config.default 0x40010000#32 = .illegal 0x40010000#32 ∧
    decodeNode Config.default 0xA0001002#32 = .illegal 0xA0001002#32 ∧
    decodeNode Config.default 0x4000FFFF#32 ≠ .illegal 0x4000FFFF#32 := by decide

theorem witness_NodeWordsByMaskAndMatch :
    decodeNode Config.default 0x4000FFFF#32 = .leaf 65535 ∧
    decodeNode Config.default 0x80FFF000#32 = .node 4095 0 := by decide

theorem witness_BusBindingCarriesEveryAddress :
    Config.default.hostBinding = .defaultBus ∧ (0 : Nat) < 32768 ∧ (32767 : Nat) < 32768 := by decide

theorem witness_BusBindingRefusesTheRest :
    ∃ s₁ s₂ s₃ : State,
      s₁.cfg.hostBinding = .defaultBus ∧ s₂.cfg.hostBinding = .defaultBus ∧ s₃.cfg.hostBinding = .defaultBus ∧
      s₁.pending = .bus ⟨4, 16, none⟩ :: [] ∧ s₂.pending = .bus ⟨0x20002, 32, some 0#32⟩ :: [] ∧
      s₃.pending = .bus ⟨0x40000, 32, none⟩ :: [] :=
  ⟨setPending [.bus ⟨4, 16, none⟩] State.reset, setPending [.bus ⟨0x20002, 32, some 0#32⟩] State.reset,
    setPending [.bus ⟨0x40000, 32, none⟩] State.reset, rfl, rfl, rfl, rfl, rfl, rfl⟩

theorem witness_PlatformBindingCarriesOnlyAbstractAccesses :
    ∃ s : State, s.cfg.hostBinding = .platform 7 ∧ s.pending = .bus ⟨0x24, 8, some 0#32⟩ :: [.engine] :=
  ⟨{ State.reset with cfg := ⟨16, 12, .platform 7⟩, pending := [.bus ⟨0x24, 8, some 0#32⟩, .engine] }, rfl, rfl⟩

theorem witness_EngineStepRunsTheFetchedWord :
    (run31 1 []).state = .run ∧ (run31 1 []).np < (run31 1 []).cfg.nodeCount ∧
    decode (run31 1 []).cfg (.node (memRead (run31 1 []) (run31 1 []).np)) = .ok (.leaf 102) ∧
    (run31 1 []).pending = [] ∧ (setPending [.engine] (run31 1 [])).pending = .engine :: [] ∧
    (run31 4096 []).cfg.nodeCount ≤ (run31 4096 []).np ∧ (run31 4096 []).EngineDue :=
  ⟨rfl, by decide, by decide, rfl, rfl, by decide, .inl rfl⟩

theorem witness_EngineRestsOutsideRun :
    (at31 .idle .none 0 false).state = .idle ∧ (at31 .done .none 0 false).state = .done ∧
    (at31 .fault .truncated 6 false).state = .fault ∧ (at31 .idle .none 0 false).pending = [] ∧
    (setPending [.engine] (at31 .done .none 0 false)).pending = .engine :: [] := by decide

theorem witness_HostStepRunsTheDecodedOperation :
    ∃ s : State, (Raw.access ⟨.lut, 4095, none⟩).isHost = true ∧
      s.pending = eventOf (.access ⟨.lut, 4095, none⟩) :: [] ∧
      decode s.cfg (.access ⟨.lut, 4095, none⟩) = .ok (.lutrd 4095) :=
  ⟨setPending [.access ⟨.lut, 4095, none⟩] State.reset, rfl, rfl, rfl⟩

theorem witness_ResetWritesTheFourRegisters : ∃ s : State, s.pending = .rst :: [] :=
  ⟨setPending [.rst] (at31 .fault .nullChild 2 true), rfl⟩

theorem witness_PowerOnLeavesTheLutUnspecified : ∃ s : State, s.pending = .powerOn :: [] :=
  ⟨setPending [.powerOn] (at31 .run .none 2 true), rfl⟩

theorem witness_LeafEmitsItsSymbol : (run31 0 []).np = 0 ∧ (run31 4095 []).np ≠ 0 := by decide

theorem witness_NodeTakesOneBitAndSelectsTheChild :
    ((run31 0 []).bits = [] ∧ (run31 0 []).np = 0) ∧ ((run31 6 []).bits = [] ∧ (run31 6 []).np ≠ 0) ∧
    ((run31 0 [false, true]).bits = false :: [true] ∧ (4095 : Nat) ≠ 0) ∧
    ((run31 0 [true]).bits = true :: [] ∧ (1 : Nat) ≠ 0) := by decide

theorem witness_EmptyWordFaults :
    (fetching 7 0x00000000#32 [true]).state = .run ∧
    (fetching 7 0x00000000#32 [true]).np < (fetching 7 0x00000000#32 [true]).cfg.nodeCount ∧
    memRead (fetching 7 0x00000000#32 [true]) 7 = 0x00000000#32 ∧
    (fetching 7 0x00000000#32 [true]).EngineDue ∧
    (setPending [.engine, .rst] (fetching 7 0x00000000#32 [true])).EngineDue :=
  ⟨rfl, by decide, by decide, .inl rfl, .inr ⟨_, rfl⟩⟩

theorem witness_IllegalWordFaults :
    (fetching 4095 0x40010041#32 []).state = .run ∧
    (fetching 4095 0x40010041#32 []).np < (fetching 4095 0x40010041#32 []).cfg.nodeCount ∧
    decodeNode Config.default (memRead (fetching 4095 0x40010041#32 []) 4095) =
      .illegal (memRead (fetching 4095 0x40010041#32 []) 4095) ∧
    (fetching 4095 0x40010041#32 []).EngineDue ∧ (setPending [.engine, .rst] (fetching 4095 0x40010041#32 [])).EngineDue :=
  ⟨rfl, by decide, by decide, .inl rfl, .inr ⟨_, rfl⟩⟩

theorem witness_StartBeginsARunAtTheRoot :
    (at31 .idle .none 0 false).state = .idle ∧ (at31 .done .none 0 true).state = .done ∧
    (run31 7 []).state = .run ∧ (at31 .fault .truncated 6 false).state = .fault := by decide

theorem witness_ClearAcknowledgesOutsideRun :
    (at31 .fault .truncated 6 true).state ≠ .run ∧ (at31 .idle .none 0 true).state ≠ .run ∧
    (run31 1 []).state = .run := by decide

theorem witness_ReservedCommandsAreRefused :
    (∃ k, 2 ≤ k ∧ k < 32 ∧ (0x00000004#32 : Word).getLsbD k = true) ∧
    ∃ k, 2 ≤ k ∧ k < 32 ∧ (0x80000002#32 : Word).getLsbD k = true :=
  ⟨⟨2, by decide⟩, ⟨31, by decide⟩⟩

theorem witness_CsrwrSelectsTheCommand :
    (1 : Nat) ≠ 0 ∧ ∃ k, 2 ≤ k ∧ k < 32 ∧ (0x00000005#32 : Word).getLsbD k = true := ⟨by decide, 2, by decide⟩

theorem witness_CsrrdReturnsTheRegister :
    State.reset.cfg.Ok ∧ (run31 4095 []).np < (run31 4095 []).cfg.nodeCount ∧ (4 : Nat) ≤ 4 := by decide

theorem witness_LutrdReturnsTheWord :
    4095 < State.reset.cfg.nodeCount ∧ State.reset.cfg.nodeCount ≤ 4096 := by decide

theorem witness_LutwrStoresTheWord :
    (at31 .fault .illegalNode 5 false).state ≠ .run ∧ 4095 < (at31 .fault .illegalNode 5 false).cfg.nodeCount ∧
    (run31 1 []).state = .run ∧ State.reset.cfg.nodeCount ≤ 4096 := by decide

theorem witness_AcceptedWriteIsSeenByReadAndFetch :
    ∃ t, State.reset.state ≠ .run ∧ 4095 < State.reset.cfg.nodeCount ∧
      exec (.lutwr 4095 0x40000041#32) State.reset = .next t :=
  ⟨memWrite 4095 0x40000041#32 State.reset, by decide, by decide, rfl⟩

theorem witness_NodeWordsFrame :
    (∃ t, exec .empty (run31 2 [true]) = .next t) ∧ (∃ t, exec (.leaf 65535) (run31 2 [true]) = .next t) ∧
    (∃ t, exec (.node 3 0) (run31 2 [true]) = .next t) ∧
    ∃ t, exec (.illegal 0xC0000000#32) (run31 2 [true]) = .next t :=
  ⟨⟨_, rfl⟩, ⟨_, rfl⟩, ⟨_, rfl⟩, ⟨_, rfl⟩⟩

theorem witness_CommandsFrame :
    (∃ t, exec .nop (run31 2 []) = .next t) ∧ (∃ t, exec .start State.reset = .next t) ∧
    (∃ t, exec .clear State.reset = .next t) ∧ (∃ t, exec (.reservedCmd 0x00000003#32) (run31 2 []) = .next t) ∧
    (∃ t, exec (.csrwr 0 0x00000001#32) State.reset = .next t) ∧ ∃ t, exec (.csrwr 1 0#32) State.reset = .next t :=
  ⟨⟨_, rfl⟩, ⟨_, rfl⟩, ⟨_, rfl⟩, ⟨_, rfl⟩, ⟨_, rfl⟩, ⟨_, rfl⟩⟩

theorem witness_HostReadsFrame :
    (∃ t, exec (.csrrd 4) (run31 2 []) = .next t) ∧ (∃ t, exec (.csrrd 2) (run31 2 []) = .next t) ∧
    (∃ t, exec (.lutrd 4095) (run31 2 []) = .next t) ∧ ∃ t, exec (.lutrd 4096) (run31 2 []) = .next t :=
  ⟨⟨_, rfl⟩, ⟨_, rfl⟩, ⟨_, rfl⟩, ⟨_, rfl⟩⟩

theorem witness_EveryStepKeepsTheInvariant : ∃ s t : State, s.Inv ∧ step s = .next t :=
  ⟨run31 6 [], raiseFault .truncated (run31 6 []), inv_of (by decide), rfl⟩

theorem witness_NodePointerChangesOnlyAsListed :
    (∃ t, step (run31 1 []) = .next t ∧ t.np ≠ (run31 1 []).np) ∧
    (∃ t, step (run31 0 [true]) = .next t ∧ t.np ≠ (run31 0 [true]).np) ∧
    (∃ t, due (.command 0x00000002#32) (at31 .fault .truncated 6 false) = .next t ∧ t.np ≠ 6) ∧
    ∃ t, due .rst (run31 7 []) = .next t ∧ t.np ≠ 7 :=
  ⟨⟨_, rfl, by decide⟩, ⟨_, rfl, by decide⟩, ⟨_, rfl, by decide⟩, ⟨_, rfl, by decide⟩⟩

theorem witness_LutEntryChangesOnlyByWriteOrPowerOn :
    ∃ t, due (.access ⟨.lut, 5, some 0x40000041#32⟩) (at31 .fault .illegalNode 5 false) = .next t ∧
      memRead t 5 ≠ memRead (at31 .fault .illegalNode 5 false) 5 :=
  ⟨_, rfl, by decide⟩

theorem witness_RunEndsDoneInExactlyTwoWays :
    (∃ t, (run31 0 []).Inv ∧ (run31 0 []).state = .run ∧ (run31 0 []).EngineDue ∧ step (run31 0 []) = .next t ∧
      t.state = .done) ∧
    ∃ t, (fetching 0 0x40000078#32 [true]).Inv ∧ (fetching 0 0x40000078#32 [true]).EngineDue ∧
      step (fetching 0 0x40000078#32 [true]) = .next t ∧ t.state = .done :=
  ⟨⟨_, inv_of (by decide), rfl, .inl rfl, rfl, rfl⟩, ⟨_, inv_of (by decide), .inl rfl, rfl, rfl⟩⟩

theorem witness_FaultCauseFollowsTheOrderOfTests :
    (∃ t, (fetching 1 0xC0000000#32 []).Inv ∧ step (fetching 1 0xC0000000#32 []) = .next t ∧
      t.cause = .illegalNode) ∧
    (∃ t, (fetching 0 0x00000000#32 []).Inv ∧ step (fetching 0 0x00000000#32 []) = .next t ∧
      t.cause = .emptyNode) ∧
    (∃ t, (fetching 5 0x80000000#32 []).Inv ∧ step (fetching 5 0x80000000#32 []) = .next t ∧
      t.cause = .truncated) ∧
    ∃ t, (fetching 0 0x80000000#32 [true, true]).Inv ∧ step (fetching 0 0x80000000#32 [true, true]) = .next t ∧
      t.cause = .nullChild :=
  ⟨⟨_, inv_of (by decide), rfl, rfl⟩, ⟨_, inv_of (by decide), rfl, rfl⟩, ⟨_, inv_of (by decide), rfl, rfl⟩,
    ⟨_, inv_of (by decide), rfl, rfl⟩⟩

theorem witness_FaultWritesOnlyStateAndCause :
    ∃ t, (fetching 2 0x80003000#32 [true]).Inv ∧ (fetching 2 0x80003000#32 [true]).state = .run ∧
      (fetching 2 0x80003000#32 [true]).EngineDue ∧ step (fetching 2 0x80003000#32 [true]) = .next t ∧
      t.state = .fault :=
  ⟨_, inv_of (by decide), rfl, .inl rfl, rfl, rfl⟩

theorem witness_FaultIsLeftOnlyByClearOrReset :
    (∃ t, due (.command 0x00000002#32) (at31 .fault .truncated 6 true) = .next t ∧ t.state ≠ .fault) ∧
    ∃ t, due .rst (at31 .fault .nullChild 2 false) = .next t ∧ t.state ≠ .fault :=
  ⟨⟨_, rfl, by decide⟩, ⟨_, rfl, by decide⟩⟩

theorem witness_RunIsLeftOnlyByTheEngineOrReset :
    (∃ t, step (run31 6 []) = .next t ∧ t.state ≠ .run) ∧ ∃ t, due .rst (run31 7 []) = .next t ∧ t.state ≠ .run :=
  ⟨⟨_, rfl, by decide⟩, ⟨_, rfl, by decide⟩⟩

theorem witness_HostErrIsSetAndClearedByExactlyThese :
    (∃ t, due (.command 0x00000001#32) (run31 7 []) = .next t ∧ (run31 7 []).hostErr = false ∧ t.hostErr = true) ∧
    (∃ t, due (.bus ⟨4, 16, none⟩) State.reset = .next t ∧ State.reset.hostErr = false ∧ t.hostErr = true) ∧
    ∃ t, due (.command 0x00000002#32) (at31 .done .none 0 true) = .next t ∧ t.hostErr = false :=
  ⟨⟨_, rfl, rfl, rfl⟩, ⟨_, rfl, rfl, rfl⟩, ⟨_, rfl, rfl⟩⟩

theorem witness_HostOperationLeavesTheRunAlone :
    ∃ s : State, s.state = .run ∧ (Raw.access ⟨.lut, 1, some 0x40000001#32⟩).isHost = true ∧
      s.pending = eventOf (.access ⟨.lut, 1, some 0x40000001#32⟩) :: [] :=
  ⟨setPending [.access ⟨.lut, 1, some 0x40000001#32⟩] (run31 1 []), rfl, rfl, rfl⟩

/-- 95_test_vectors.md 3.5: an engine step and a refused LUTWR. -/
theorem witness_InterleavedHostOperationsCannotChangeARun :
    ∃ (s u : State) (es : List Event), (∃ e ∈ es, e ≠ .engine) ∧
      (∀ e ∈ es, e = .engine ∨ ∃ r : Raw, r.isHost = true ∧ e = eventOf r) ∧ s.state = .run ∧
      steps (es.filter fun e => e = .engine).length { s with pending := es.filter fun e => e = .engine } = .next u ∧
      u.state = .run := by
  refine ⟨run31 0 [false], run31 1 [], [.engine, .access ⟨.lut, 1, some 0x40000001#32⟩],
    ⟨_, List.mem_cons_of_mem _ (List.mem_cons_self ..), by decide⟩, ?_, rfl, rfl, rfl⟩
  intro e he
  simp only [List.mem_cons, List.not_mem_nil, or_false] at he
  rcases he with rfl | rfl
  · exact .inl rfl
  · exact .inr ⟨.access ⟨.lut, 1, some 0x40000001#32⟩, rfl, rfl⟩

theorem witness_RunEndsWithinTwiceItsBitsPlusOne :
    (run31 0 [false, true]).Inv ∧ (run31 0 [false, true]).state = .run ∧ (run31 0 [false, true]).np = 0 ∧
    (run31 0 [false, true]).pending = [] :=
  ⟨inv_of (by decide), rfl, rfl, rfl⟩

/-- The image of 95_test_vectors.md 3.4, and the same tree at other indices. -/
def layoutA : State :=
  { State.reset with
    lut := [(0, 0x80001002#32), (1, 0x40000041#32), (2, 0x80003000#32), (3, 0x40000042#32)], state := .run,
    bits := [false, true, false] }

def layoutB : State :=
  { State.reset with
    lut := [(0, 0x80005009#32), (5, 0x40000041#32), (7, 0x40000042#32), (9, 0x80007000#32)], state := .run,
    bits := [false, true, false] }

/-- Which index of the one is which of the other. -/
def corresponds (p q : Nat) : Prop := (p, q) ∈ [(0, 0), (1, 5), (2, 9), (3, 7)]

theorem witness_LayoutOfTheTreeDoesNotMatter :
    layoutA.Inv ∧ layoutB.Inv ∧ SameShape corresponds (nodeAt layoutA) (nodeAt layoutB) ∧ layoutA.state = .run ∧
    layoutB.state = .run ∧ layoutA.np = 0 ∧ layoutB.np = 0 ∧ layoutA.pending = [] ∧ layoutB.pending = [] ∧
    layoutA.bits = layoutB.bits := by
  refine ⟨inv_of (by decide), inv_of (by decide), ⟨?_, ?_, ?_⟩, rfl, rfl, rfl, rfl, rfl, rfl, rfl⟩
  · simp [corresponds]
  · intro p q h
    simp only [corresponds, List.mem_cons, Prod.mk.injEq, List.not_mem_nil, or_false] at h
    omega
  · intro p q h
    simp only [corresponds, List.mem_cons, Prod.mk.injEq, List.not_mem_nil, or_false] at h
    rcases h with ⟨rfl, rfl⟩ | ⟨rfl, rfl⟩ | ⟨rfl, rfl⟩ | ⟨rfl, rfl⟩
    · rw [show nodeAt layoutA 0 = .node 1 2 by decide, show nodeAt layoutB 0 = .node 5 9 by decide]
      simp [SameWord, SameChild, corresponds]
    · rw [show nodeAt layoutA 1 = .leaf 65 by decide, show nodeAt layoutB 5 = .leaf 65 by decide]
      simp [SameWord]
    · rw [show nodeAt layoutA 2 = .node 3 0 by decide, show nodeAt layoutB 9 = .node 7 0 by decide]
      simp [SameWord, SameChild, corresponds]
    · rw [show nodeAt layoutA 3 = .leaf 66 by decide, show nodeAt layoutB 7 = .leaf 66 by decide]
      simp [SameWord]

/-- 95_test_vectors.md 3.1, the message f, c. -/
theorem witness_DecodingReproducesTheSymbols :
    ∃ (s : State) (msg : List (Nat × Code)), s.Inv ∧ s.state = .run ∧ s.np = 0 ∧ s.pending = [] ∧
      (∃ l r, nodeAt s 0 = .node l r) ∧ (∀ m ∈ msg, LeafCode (nodeAt s) m.1 m.2) ∧ msg.length = 2 ∧
      s.bits = msg.flatMap fun m => m.2 := by
  refine ⟨run31 0 [false, true, false, false], [(102, [false]), (99, [true, false, false])], inv_of (by decide), rfl,
    rfl, rfl, ⟨1, 2, by decide⟩, ?_, rfl, rfl⟩
  intro m hm
  simp only [List.mem_cons, List.not_mem_nil, or_false] at hm
  rcases hm with rfl | rfl
  · exact ⟨1, by decide, by decide⟩
  · exact ⟨4, by decide, by decide⟩

/-- 95_test_vectors.md 3.1, the variant `011`. -/
theorem witness_TruncatedStreamFaultsWithoutASymbol :
    ∃ (s : State) (msg : List (Nat × Code)) (x : Nat) (front rest : Code), s.Inv ∧ s.state = .run ∧ s.np = 0 ∧
      s.pending = [] ∧ (∀ m ∈ msg, LeafCode (nodeAt s) m.1 m.2) ∧ LeafCode (nodeAt s) x (front ++ rest) ∧
      front ≠ [] ∧ rest ≠ [] ∧ s.bits = msg.flatMap (fun m => m.2) ++ front := by
  refine ⟨run31 0 [false, true, true], [(102, [false])], 101, [true, true], [true], inv_of (by decide), rfl, rfl, rfl,
    ?_, ⟨10, by decide, by decide⟩, by decide, by decide, rfl⟩
  intro m hm
  simp only [List.mem_cons, List.not_mem_nil, or_false] at hm
  rw [hm]
  exact ⟨1, by decide, by decide⟩

theorem witness_LeafCodesArePrefixFree :
    LeafCode (nodeAt (run31 0 [])) 101 [true, true, true] ∧ LeafCode (nodeAt (run31 0 [])) 101 [true, true, true] ∧
    [true, true, true] <+: [true, true, true] :=
  ⟨⟨10, by decide, by decide⟩, ⟨10, by decide, by decide⟩, List.prefix_rfl⟩

/-- The tree of 95_test_vectors.md 3.4. -/
def tree34 : Nat → Instr
  | 0 => .node 1 2
  | 1 => .leaf 65
  | 2 => .node 3 0
  | 3 => .leaf 66
  | _ => .illegal 0xFFFFFFFF#32

theorem reach34 {p : Nat} (h : Reach tree34 p) : p = 0 ∨ p = 1 ∨ p = 2 ∨ p = 3 := by
  induction h with
  | root => exact .inl rfl
  | left _ h _ ih => rcases ih with rfl | rfl | rfl | rfl <;> simp [tree34] at h <;> omega
  | right _ h _ ih => rcases ih with rfl | rfl | rfl | rfl <;> simp [tree34] at h <;> omega

theorem witness_ReachableIndexHasExactlyOneCode : PartialTree tree34 ∧ Reach tree34 3 := by
  have r2 : Reach tree34 2 := .right .root (l := 1) (r := 2) rfl (by decide)
  refine ⟨⟨fun p hp => ?_, fun q hq h0 => ?_⟩, .left r2 (l := 3) (r := 0) rfl (by decide)⟩
  · rcases reach34 hp with rfl | rfl | rfl | rfl <;> simp [tree34]
  · have key : ∀ p' side', Reach tree34 p' → childField (tree34 p') side' = some q →
        (p' = 0 ∧ q = 1 ∧ side' = false) ∨ (p' = 0 ∧ q = 2 ∧ side' = true) ∨ (p' = 2 ∧ q = 3 ∧ side' = false) := by
      intro p' side' hp hc
      rcases reach34 hp with rfl | rfl | rfl | rfl <;> cases side' <;> simp [tree34, childField, childOf] at hc ⊢ <;>
        omega
    rcases reach34 hq with rfl | rfl | rfl | rfl
    · exact absurd rfl h0
    · refine ⟨0, false, ⟨.root, rfl⟩, fun p' side' hp hc => ?_⟩
      rcases key p' side' hp hc with ⟨h1, h2, h3⟩ | ⟨h1, h2, h3⟩ | ⟨h1, h2, h3⟩ <;> first | exact ⟨h1, h3⟩ | omega
    · refine ⟨0, true, ⟨.root, rfl⟩, fun p' side' hp hc => ?_⟩
      rcases key p' side' hp hc with ⟨h1, h2, h3⟩ | ⟨h1, h2, h3⟩ | ⟨h1, h2, h3⟩ <;> first | exact ⟨h1, h3⟩ | omega
    · refine ⟨2, false, ⟨r2, rfl⟩, fun p' side' hp hc => ?_⟩
      rcases key p' side' hp hc with ⟨h1, h2, h3⟩ | ⟨h1, h2, h3⟩ | ⟨h1, h2, h3⟩ <;> first | exact ⟨h1, h3⟩ | omega

theorem witness_SingleLeafRunIsOneStep :
    (fetching 0 0x40000078#32 [true]).state = .run ∧ (fetching 0 0x40000078#32 [true]).np = 0 ∧
    nodeAt (fetching 0 0x40000078#32 [true]) 0 = .leaf 120 ∧ (fetching 0 0x40000078#32 [true]).EngineDue ∧
    (setPending [.engine, .rst] (fetching 0 0x40000078#32 [true])).EngineDue :=
  ⟨rfl, rfl, by decide, .inl rfl, .inr ⟨_, rfl⟩⟩

theorem witness_RepeatedStartsRepeatTheSymbol :
    ∃ s : State, s.state = .idle ∧ nodeAt s 0 = .leaf 120 ∧
      s.pending = (List.replicate 3 [Event.command 0x00000001#32, Event.engine]).flatten :=
  ⟨{ State.reset with
      lut := [(0, 0x40000078#32)],
      pending := (List.replicate 3 [Event.command 0x00000001#32, Event.engine]).flatten }, rfl, by decide, rfl⟩

theorem witness_OnlyLeavesEmit : ∃ t, step (run31 1 []) = .next t ∧ t.out ≠ (run31 1 []).out :=
  ⟨_, rfl, by decide⟩

theorem witness_OnlyNodesTakeBits :
    (∃ t, step (run31 0 [true]) = .next t ∧ t.bits ≠ (run31 0 [true]).bits) ∧
    ∃ t, due (.stream [true]) (run31 0 []) = .next t ∧ t.bits ≠ (run31 0 []).bits :=
  ⟨⟨_, rfl, by decide⟩, ⟨_, rfl, by decide⟩⟩

theorem witness_PortSignalsShowTheStep :
    (∃ t, (run31 0 [true]).Inv ∧ (∀ bs es, (run31 0 [true]).pending ≠ .stream bs :: es) ∧
      step (run31 0 [true]) = .next t ∧ (run31 0 [true]).bsTakeSignal = true) ∧
    ∃ t, (run31 10 []).Inv ∧ step (run31 10 []) = .next t ∧ (run31 10 []).symData = some 101 :=
  ⟨⟨_, inv_of (by decide), by simp [run31, at31, State.reset], rfl, by decide⟩, ⟨_, inv_of (by decide), rfl, by decide⟩⟩

/-- The image of 95_test_vectors.md 2.5. -/
def image34 : Image :=
  ⟨[(0, 0x80001002#32), (1, 0x40000041#32), (2, 0x80003000#32), (3, 0x40000042#32)], 4⟩

theorem witness_ConflictingCodesAreRejected :
    (0 : Int) ≤ 65535 ∧ (65535 : Int) < 2 ^ Config.default.symW ∧
    ([false, true] = [false] ++ true :: ([] : Code) ∧ HasCode (image34.nodeAt Config.default) 1 [false] ∧
      image34.nodeAt Config.default 1 = .leaf 65) ∧
    (HasCode (image34.nodeAt Config.default) 2 [true] ∧ image34.nodeAt Config.default 2 = .node 3 0) ∧
    HasCode (image34.nodeAt Config.default) 3 [true, false] ∧ image34.nodeAt Config.default 3 = .leaf 66 :=
  ⟨by decide, by decide, ⟨rfl, by decide, by decide⟩, ⟨by decide, by decide⟩, by decide, by decide⟩

theorem witness_SymbolOutOfRangeIsRejected :
    ((-1 : Int) < 0 ∨ (2 : Int) ^ Config.default.symW ≤ -1) ∧
    ((65536 : Int) < 0 ∨ (2 : Int) ^ Config.default.symW ≤ 65536) := by decide

theorem witness_CanonicalImageSerializesToItsTree :
    Config.Ok ⟨16, 2, .defaultBus⟩ ∧ (∀ sc ∈ (CodeTree.node (.leaf 0) (.leaf 65535)).pairs, sc.1 < 2 ^ 16) ∧
    (CodeTree.node (.leaf 0) (.leaf 65535)).size ≤ Config.nodeCount ⟨16, 2, .defaultBus⟩ := by decide

theorem witness_BuilderHoldsExactlyTheAlphabet : ∃ e ∈ [(5, 0), (6, 1)], e.2 ≠ 0 := by decide

end Sys2Proof.Tests
end

section
/-! PROOFS. A host operation that is due (spec 00_scope.md R9), and a bus access on a platform's own binding (log 10). -/

namespace Sys2Proof.Machine

/-- Every host operation is its own event, and that event's turn is the operation's. -/
theorem turn_eventOf {r : Raw} (hr : r.isHost = true) (s : State) : turn (eventOf r) s = hostTurn r s := by
  cases r with
  | node w => cases hr
  | command v => rfl
  | access a => rfl
  | bus b => rfl

theorem hostTurn_of_decode_ok {r : Raw} {i : Instr} {s : State} (hd : decode s.cfg r = .ok i) :
    hostTurn r s = exec i s := by
  rw [hostTurn, hd]

theorem hostTurn_of_decode_error {r : Raw} {e : DecodeError} {s : State} (hd : decode s.cfg r = .error e) :
    hostTurn r s = .next (dropAccess e r.isRead s) := by
  rw [hostTurn, hd]

/-- The turn of a host operation that is due sees the same parameters with the operation taken off the list, so it
executes what the operation decodes to before the step. -/
theorem step_of_host_decode_ok {s : State} {r : Raw} {i : Instr} {es : List Event} (hr : r.isHost = true)
    (hp : s.pending = eventOf r :: es) (hd : decode s.cfg r = .ok i) : step s = exec i (setPending es s) := by
  have hd' : decode (setPending es s).cfg r = .ok i := hd
  rw [step_cons hp, turn_eventOf hr, hostTurn_of_decode_ok hd']

theorem step_of_host_decode_error {s : State} {r : Raw} {e : DecodeError} {es : List Event} (hr : r.isHost = true)
    (hp : s.pending = eventOf r :: es) (hd : decode s.cfg r = .error e) :
    step s = .next (dropAccess e r.isRead (setPending es s)) := by
  have hd' : decode (setPending es s).cfg r = .error e := hd
  rw [step_cons hp, turn_eventOf hr, hostTurn_of_decode_error hd']

/-- On a platform's own binding a bus access decodes as the abstract access it carries. -/
theorem decode_bus_of_platformAccess_some {c : Config} {n : Nat} {b : BusAccess} {a : Access}
    (hc : c.hostBinding = .platform n) (ha : Config.platformAccess n b = some a) :
    decode c (.bus b) = .ok (decodeAccess a) := by
  simp [decode, bindBus, hc, ha]

theorem decode_bus_of_platformAccess_none {c : Config} {n : Nat} {b : BusAccess}
    (hc : c.hostBinding = .platform n) (ha : Config.platformAccess n b = none) :
    decode c (.bus b) = .error .notCarried := by
  simp [decode, bindBus, hc, ha]

/-- Settles O11: the step is the turn of the operation's own event, and that turn executes what the operation decodes
to. -/
theorem hostStepRunsTheDecodedOperation : Obligations.HostStepRunsTheDecodedOperation :=
  fun _ _ _ _ hr hp hd => step_of_host_decode_ok hr hp hd

/-- Settles O60: the bus access and the abstract access it carries decode to one instruction, which both steps execute
in one state; an access that is not carried is dropped. -/
theorem platformBindingCarriesOnlyAbstractAccesses : Obligations.PlatformBindingCarriesOnlyAbstractAccesses := by
  intro s n b es hc hp
  cases ha : Config.platformAccess n b with
  | some a =>
    have bus_step : step s = exec (decodeAccess a) (setPending es s) :=
      step_of_host_decode_ok (r := .bus b) rfl hp (decode_bus_of_platformAccess_some hc ha)
    have access_step : step { s with pending := .access a :: es } = exec (decodeAccess a) (setPending es s) :=
      step_of_host_decode_ok (r := .access a) rfl rfl rfl
    exact bus_step.trans access_step.symm
  | none => exact step_of_host_decode_error (r := .bus b) rfl hp (decode_bus_of_platformAccess_none hc ha)

end Sys2Proof.Machine
end

section
/-! PROOFS. The state over one step (spec 10_state.md): the invariant, NP, the undelivered bits, the port signals and
the level outputs. First what a turn leaves of each, from the inversion of a step; then the statements. -/

namespace Sys2Proof.Machine

/-! ## The invariant, operation by operation -/

theorem nodeCount_pos (c : Config) : 0 < c.nodeCount := Nat.two_pow_pos c.idxW

/-- The child a bit selects is in every range that both child fields are in. -/
theorem childOf_lt {n l r : Nat} (hl : l < n) (hr : r < n) (b : Bool) : childOf b l r < n := by
  cases b
  · exact hl
  · exact hr

namespace State.Inv

variable {s t : State}

/-- The invariant speaks of six fields only. -/
theorem congr (h : s.Inv) (cfg : t.cfg = s.cfg) (lut : t.lut = s.lut) (np : t.np = s.np) (state : t.state = s.state)
    (cause : t.cause = s.cause) (out : t.out = s.out) : t.Inv where
  cfgOk := cfg ▸ h.cfgOk
  lutWf := lut ▸ h.lutWf
  lutRange := by rw [cfg, lut]; exact h.lutRange
  npRange := by rw [cfg, np]; exact h.npRange
  npAtRest := by rw [state, np]; exact h.npAtRest
  causeIff := by rw [cause, state]; exact h.causeIff
  outRange := by rw [out, cfg]; exact h.outRange

theorem setPending (h : s.Inv) (es : List Event) : (setPending es s).Inv := h.congr rfl rfl rfl rfl rfl rfl

/-- CAUSE is NONE wherever STATE is not FAULT (10_state.md R16). -/
theorem cause_eq_none (h : s.Inv) (hs : s.state ≠ .fault) : s.cause = .none :=
  not_not.1 fun hc => hs (h.causeIff.1 hc)

theorem acknowledge (h : s.Inv) : (acknowledge s).Inv where
  cfgOk := h.cfgOk
  lutWf := h.lutWf
  lutRange := h.lutRange
  npRange := nodeCount_pos s.cfg
  npAtRest := fun _ => rfl
  causeIff := by simp
  outRange := h.outRange

/-- A reset leaves of the block what CLEAR leaves. -/
theorem resetBlock (h : s.Inv) : (resetBlock s).Inv := h.acknowledge

theorem powerOnBlock (h : s.Inv) : (powerOnBlock s).Inv where
  cfgOk := h.cfgOk
  lutWf := Memory.wf_nil
  lutRange := by simp
  npRange := nodeCount_pos s.cfg
  npAtRest := fun _ => rfl
  causeIff := by simp
  outRange := h.outRange

theorem memWrite (h : s.Inv) {i : Nat} (hi : i < s.cfg.nodeCount) (w : Word) : (memWrite i w s).Inv where
  cfgOk := h.cfgOk
  lutWf := Memory.wf_write h.lutWf i w
  lutRange := fun e he => by
    rcases Memory.mem_write he with rfl | he
    · exact hi
    · exact h.lutRange e he
  npRange := h.npRange
  npAtRest := h.npAtRest
  causeIff := h.causeIff
  outRange := h.outRange

/-- A run that begins has no CAUSE, since none is kept in IDLE or DONE. -/
theorem beginRun (h : s.Inv) (hs : s.state = .idle ∨ s.state = .done) : (beginRun s).Inv where
  cfgOk := h.cfgOk
  lutWf := h.lutWf
  lutRange := h.lutRange
  npRange := nodeCount_pos s.cfg
  npAtRest := fun _ => rfl
  causeIff := by
    have : s.cause = .none := h.cause_eq_none (by rcases hs with e | e <;> simp [e])
    simp [this]
  outRange := h.outRange

/-- A run ends in DONE only at the root, where NP is 0. -/
theorem endRun (h : s.Inv) (hr : s.state = .run) (h0 : s.np = 0) : (endRun s).Inv where
  cfgOk := h.cfgOk
  lutWf := h.lutWf
  lutRange := h.lutRange
  npRange := h.npRange
  npAtRest := fun _ => h0
  causeIff := by
    have : s.cause = .none := h.cause_eq_none (by simp [hr])
    simp [this]
  outRange := h.outRange

theorem raiseFault (h : s.Inv) {c : Cause} (hc : c ≠ .none) : (raiseFault c s).Inv where
  cfgOk := h.cfgOk
  lutWf := h.lutWf
  lutRange := h.lutRange
  npRange := h.npRange
  npAtRest := by simp
  causeIff := by simp [hc]
  outRange := h.outRange

theorem symOut (h : s.Inv) {x : Nat} (hx : x < 2 ^ s.cfg.symW) : (symOut x s).Inv where
  cfgOk := h.cfgOk
  lutWf := h.lutWf
  lutRange := h.lutRange
  npRange := h.npRange
  npAtRest := h.npAtRest
  causeIff := h.causeIff
  outRange := fun y hy => by
    rcases List.mem_append.1 hy with hy | hy
    · exact h.outRange y hy
    · exact List.mem_singleton.1 hy ▸ hx

/-- In RUN the node pointer may be any index. -/
theorem moveTo (h : s.Inv) (hr : s.state = .run) {i : Nat} (hi : i < s.cfg.nodeCount) : (moveTo i s).Inv where
  cfgOk := h.cfgOk
  lutWf := h.lutWf
  lutRange := h.lutRange
  npRange := hi
  npAtRest := by simp [hr]
  causeIff := h.causeIff
  outRange := h.outRange

theorem setStream (h : s.Inv) (bs : List Bool) : (setStream bs s).Inv := h.congr rfl rfl rfl rfl rfl rfl

end State.Inv

/-! ## What a host turn does, and what it keeps -/

/-- The instruction that is due does one of the things a host instruction can do. -/
theorem DueEffect.hostEffect {s t : State} {i : Instr} (h : DueEffect s t i) : HostEffect s t := by
  have start : execStart s = .next t → HostEffect s t := fun h => by
    obtain ⟨t', e, he⟩ := execStart_effect s
    rw [e] at h; cases h; exact he
  have clear : execClear s = .next t → HostEffect s t := fun h => by
    obtain ⟨t', e, he⟩ := execClear_effect s
    rw [e] at h; cases h; exact he
  cases h with
  | nop h | ctrlNop h => exact h ▸ .unchanged
  | start h | ctrlStart h => exact start h
  | clear h | ctrlClear h => exact clear h
  | reservedCmd _ h | ctrlReserved _ h | notCtrl _ h | lutwrRefused _ h => exact h ▸ .refused
  | csrrd _ h | lutrd _ h => exact h ▸ .returns _
  | csrrdRefused _ h | lutrdRefused _ h => exact h ▸ .refusedRead
  | lutwr hr hi h => exact h ▸ .writes hr hi

/-- No host turn reaches the Bit Source or the sink (20_memory.md R49, 10_state.md R25). -/
theorem HostEffect.keeps_streams {s t : State} (h : HostEffect s t) : t.bits = s.bits ∧ t.out = s.out := by
  cases h <;> exact ⟨rfl, rfl⟩

theorem HostEffect.keeps_inv {s t : State} (he : HostEffect s t) (h : s.Inv) : t.Inv := by
  cases he with
  | unchanged => exact h
  | begins hs => exact h.beginRun hs
  | acknowledges => exact h.acknowledge
  | refused => exact h.congr rfl rfl rfl rfl rfl rfl
  | writes _ hi => exact h.memWrite hi _
  | returns => exact h.congr rfl rfl rfl rfl rfl rfl
  | refusedRead => exact h.congr rfl rfl rfl rfl rfl rfl

/-- A host instruction moves NP only as an accepted START or CLEAR, in either spelling, and then to 0. -/
theorem DueEffect.np_changes {s t : State} {i : Instr} (h : DueEffect s t i) (hn : t.np ≠ s.np) :
    t.np = 0 ∧
      ((i = .start ∨ i = .csrwr 0 0x00000001#32) ∧ (s.state = .idle ∨ s.state = .done) ∨
        (i = .clear ∨ i = .csrwr 0 0x00000002#32) ∧ s.state ≠ .run) := by
  have start : execStart s = .next t → t.np = 0 ∧ (s.state = .idle ∨ s.state = .done) := fun h => by
    rcases execStart_cases s with ⟨hs, e⟩ | ⟨-, e⟩ <;> rw [e] at h <;> cases h
    · exact ⟨rfl, hs⟩
    · exact absurd rfl hn
  have clear : execClear s = .next t → t.np = 0 ∧ s.state ≠ .run := fun h => by
    rcases execClear_cases s with ⟨hs, e⟩ | ⟨-, e⟩ <;> rw [e] at h <;> cases h
    · exact ⟨rfl, hs⟩
    · exact absurd rfl hn
  cases h with
  | start h => exact ⟨(start h).1, .inl ⟨.inl rfl, (start h).2⟩⟩
  | ctrlStart h => exact ⟨(start h).1, .inl ⟨.inr rfl, (start h).2⟩⟩
  | clear h => exact ⟨(clear h).1, .inr ⟨.inl rfl, (clear h).2⟩⟩
  | ctrlClear h => exact ⟨(clear h).1, .inr ⟨.inr rfl, (clear h).2⟩⟩
  | _ => subst_vars; exact absurd rfl hn

/-- A bus access that is no abstract access leaves NP alone. -/
theorem dropAccess_np (e : DecodeError) (isRead : Bool) (s : State) : (dropAccess e isRead s).np = s.np := by
  cases e <;> cases isRead <;> rfl

/-! ## What an engine turn does -/

/-- A decoded node word keeps the invariant in RUN: the decoder's field widths bound the symbol and the child. -/
theorem EngineEffect.keeps_inv {s t : State} {w : Word} (he : EngineEffect s (decodeNode s.cfg w) t) (h : s.Inv)
    (hr : s.state = .run) : t.Inv := by
  generalize hi : decodeNode s.cfg w = i at he
  cases he with
  | empty => exact h.raiseFault (by decide)
  | illegal => exact h.raiseFault (by decide)
  | leafRoot h0 => exact (h.symOut (decodeNode_leaf_lt h.cfgOk hi)).endRun hr h0
  | leafBelow => exact (h.symOut (decodeNode_leaf_lt h.cfgOk hi)).moveTo hr (nodeCount_pos s.cfg)
  | nodeEnd _ h0 => exact h.endRun hr h0
  | nodeTruncated => exact h.raiseFault (by decide)
  | @nodeNull _ _ _ rest => exact (h.setStream rest).raiseFault (by decide)
  | @nodeMoves _ _ b rest =>
    obtain ⟨hleft, hright⟩ := decodeNode_node_lt h.cfgOk hi
    exact (h.setStream rest).moveTo hr (childOf_lt hleft hright b)

/-- A node word moves NP only as a LEAF below the root, to 0, or as a NODE, to the child the bit taken selects. -/
theorem EngineEffect.np_changes {s t : State} {i : Instr} (he : EngineEffect s i t) (hn : t.np ≠ s.np) :
    (s.np ≠ 0 ∧ t.np = 0 ∧ ∃ x, i = .leaf x) ∨
      (t.np ≠ 0 ∧ ∃ l r b, i = .node l r ∧ s.bits = b :: t.bits ∧ t.np = childOf b l r) := by
  cases he with
  | leafBelow h0 => exact .inl ⟨h0, rfl, _, rfl⟩
  | nodeMoves hb hc => exact .inr ⟨hc, _, _, _, rfl, hb, rfl⟩
  | _ => exact absurd rfl hn

/-- What a node word does to the two streams: a LEAF emits its symbol, a NODE with a bit there takes it, any other word
and a NODE without a bit touch neither. -/
theorem EngineEffect.streams {s t : State} {i : Instr} (he : EngineEffect s i t) :
    (∃ x, i = .leaf x ∧ t.bits = s.bits ∧ t.out = s.out ++ [x]) ∨
    (∃ l r b, i = .node l r ∧ s.bits = b :: t.bits ∧ t.out = s.out) ∨
    ((∀ x, i ≠ .leaf x) ∧ (∀ l r, i = .node l r → s.bits = []) ∧ t.bits = s.bits ∧ t.out = s.out) := by
  cases he with
  | leafRoot | leafBelow => exact .inl ⟨_, rfl, rfl, rfl⟩
  | nodeNull hb | nodeMoves hb => exact .inr (.inl ⟨_, _, _, rfl, hb, rfl⟩)
  | nodeEnd hb | nodeTruncated hb => exact .inr (.inr ⟨by simp, fun _ _ _ => hb, rfl, rfl⟩)
  | empty | illegal => exact .inr (.inr ⟨by simp, by simp, rfl, rfl⟩)

/-! ## The two streams over a step, and the signals of its start -/

theorem not_engineDue {s : State} {e : Event} {es : List Event} (hp : s.pending = e :: es) (he : e ≠ .engine) :
    ¬s.EngineDue := by
  rintro (h | ⟨es', h⟩) <;> rw [hp] at h <;> cases h
  exact he rfl

/-- Every step is a node word's, or it emits nothing and leaves the bits to the environment. -/
theorem step_streams {s t : State} (h : step s = .next t) :
    (∃ es, s.EngineDue ∧ s.state = .run ∧ s.np < s.cfg.nodeCount ∧
        EngineEffect (setPending es s) (nodeAt s s.np) t) ∨
      (¬(s.EngineDue ∧ s.state = .run) ∧ t.out = s.out ∧
        (t.bits = s.bits ∨ ∃ es, s.pending = .stream t.bits :: es)) := by
  have other : ∀ {e : Event} {es : List Event}, s.pending = e :: es → e ≠ .engine →
      ¬(s.EngineDue ∧ s.state = .run) := fun hp he hd => not_engineDue hp he hd.1
  cases step_inv h with
  | engineRests _ hr => exact .inr ⟨fun hd => hr hd.2, rfl, .inl rfl⟩
  | engine hd hr hn he => exact .inl ⟨_, hd, hr, hn, he⟩
  | host hr hp hd he =>
    obtain ⟨hb, ho⟩ := he.hostEffect.keeps_streams
    exact .inr ⟨fun due => not_hostDue_of_engineDue due.1 _ ⟨_, _, hr, hp, hd⟩, ho, .inl hb⟩
  | busDropped hp =>
    obtain ⟨hb, ho⟩ := (dropAccess_effect _ _ _).keeps_streams
    exact .inr ⟨other hp (by simp), ho, .inl hb⟩
  | rst hp | powerOn hp => exact .inr ⟨other hp (by simp), rfl, .inl rfl⟩
  | stream hp => exact .inr ⟨other hp (by simp), rfl, .inr ⟨_, hp⟩⟩

theorem engineMoves_iff (s : State) : engineMoves s = true ↔ s.EngineDue ∧ s.state = .run := by
  unfold engineMoves State.EngineDue
  rw [Bool.and_eq_true, beq_iff_eq]
  refine and_congr_left fun _ => ?_
  cases s.pending with
  | nil => simp
  | cons e es => cases e <;> simp

theorem wordInStep_eq_some {s : State} (hd : s.EngineDue) (hr : s.state = .run) (hn : s.np < s.cfg.nodeCount) :
    wordInStep s = some (nodeAt s s.np) := by
  rw [wordInStep, if_pos ((engineMoves_iff s).2 ⟨hd, hr⟩), fetch_eq_some hn]
  rfl

theorem wordInStep_eq_none {s : State} (h : ¬(s.EngineDue ∧ s.state = .run)) : wordInStep s = none :=
  if_neg (mt (engineMoves_iff s).1 h)

theorem bsHas_iff (s : State) : bsHas s = true ↔ s.bits ≠ [] := by simp [bsHas]

theorem bsTakeSignal_iff (s : State) :
    s.bsTakeSignal = true ↔ (∃ l r, wordInStep s = some (.node l r)) ∧ s.bits ≠ [] := by
  unfold State.bsTakeSignal
  split
  case h_1 l r hw => simp [hw, bsHas_iff]
  case h_2 hw => simpa using fun l r h => absurd h (hw l r)

theorem symData_eq_some (s : State) (x : Nat) : s.symData = some x ↔ wordInStep s = some (.leaf x) := by
  unfold State.symData
  split
  case h_1 y hw => simp [hw]
  case h_2 hw => simpa using hw x

theorem symValid_iff (s : State) : s.symValid = true ↔ ∃ x, wordInStep s = some (.leaf x) := by
  simp only [State.symValid, Option.isSome_iff_exists, symData_eq_some]

/-! ## The statements -/

/-- Settles O32: by the inversion of a step, each turn is one of the operations above, all of which keep the
invariant. -/
theorem everyStepKeepsTheInvariant : Obligations.EveryStepKeepsTheInvariant := by
  intro s t h hs
  cases step_inv hs with
  | engineRests => exact h.setPending _
  | engine _ hr _ he => exact EngineEffect.keeps_inv he (h.setPending _) hr
  | host _ _ _ he => exact he.hostEffect.keeps_inv (h.setPending _)
  | busDropped => exact (dropAccess_effect _ _ _).keeps_inv (h.setPending _)
  | rst => exact (h.setPending _).resetBlock
  | powerOn => exact (h.setPending _).powerOnBlock
  | stream => exact (h.setPending _).setStream _

/-- Settles O33: of the turns that can be due only a LEAF's, a NODE's, an accepted START's or CLEAR's and a reset's
move NP. -/
theorem nodePointerChangesOnlyAsListed : Obligations.NodePointerChangesOnlyAsListed := by
  intro s t hs hn
  cases step_inv hs with
  | engine hd hr _ he =>
    rcases he.np_changes hn with ⟨h0, ht, hx⟩ | ⟨ht, l, r, b, hi, hb, hc⟩
    · exact .inl ⟨hd, hr, h0, ht, hx⟩
    · refine .inr (.inl ⟨hd, hr, ht, l, r, hi, ?_⟩)
      cases b with
      | false => exact .inl ⟨hb, hc⟩
      | true => exact .inr ⟨hb, hc⟩
  | @host _ _ i _ hr hp hd he =>
    have due : ∀ {j}, i = j → s.HostDue j := fun hj => ⟨_, _, hr, hp, hj ▸ hd⟩
    obtain ⟨ht, ⟨hi, hst⟩ | ⟨hi, hst⟩⟩ := he.np_changes hn
    · exact .inr (.inr (.inl ⟨hi.imp due due, hst, ht⟩))
    · exact .inr (.inr (.inr (.inl ⟨hi.imp due due, hst, ht⟩)))
  | rst hp => exact .inr (.inr (.inr (.inr ⟨⟨_, .inl hp⟩, rfl⟩)))
  | powerOn hp => exact .inr (.inr (.inr (.inr ⟨⟨_, .inr hp⟩, rfl⟩)))
  | busDropped => exact absurd (dropAccess_np _ _ _) hn
  | engineRests | stream => exact absurd rfl hn

/-- Settles O52: a node word takes a bit only as a NODE, and every other turn leaves the bits alone but the
environment's. -/
theorem onlyNodesTakeBits : Obligations.OnlyNodesTakeBits := by
  intro s t hs
  rcases step_streams hs with ⟨_, hd, hr, -, he⟩ | ⟨-, -, hb | hp⟩
  · rcases he.streams with ⟨-, -, hb, -⟩ | ⟨l, r, b, hi, hb, ho⟩ | ⟨-, -, hb, -⟩
    · exact .inl hb
    · exact .inr (.inl ⟨hd, hr, ho, l, r, b, hi, hb⟩)
    · exact .inl hb
  · exact .inl hb
  · exact .inr (.inr hp)

/-- Settles O53: the signals are those of the word in the step, and the streams change by that word's kind. -/
theorem portSignalsShowTheStep : Obligations.PortSignalsShowTheStep := by
  intro s t _ hns hs
  refine ⟨bsHas_iff s, ?_⟩
  simp only [bsTakeSignal_iff, symValid_iff, symData_eq_some, State.bsBit]
  rcases step_streams hs with ⟨_, hd, hr, hn, he⟩ | ⟨hd, ho, hb | ⟨es, hp⟩⟩
  · rw [wordInStep_eq_some hd hr hn]
    rcases he.streams with ⟨x, hi, hb, ho⟩ | ⟨l, r, b, hi, hb, ho⟩ | ⟨hl, hnode, hb, ho⟩
    · simp [hi, hb, ho]
    · rw [setPending_bits] at hb
      simp [hi, hb, ho]
    · simpa [hl, hb, ho] using hnode
  · simp [wordInStep_eq_none hd, hb, ho]
  · exact absurd hp (hns _ es)

/-- Settles O54: each level output is the comparison of STATE with its own value. -/
theorem levelOutputsMirrorState : Obligations.LevelOutputsMirrorState := fun _ =>
  ⟨beq_iff_eq, beq_iff_eq, beq_iff_eq⟩

end Sys2Proof.Machine
end

section
/-! PROOFS. The LUT as the host and the engine see it (spec 20_memory.md): which step can change what an entry reads as,
and where the default bus binding carries the accesses of the two address spaces. -/

namespace Sys2Proof.Machine

/-! ## What a turn leaves of the LUT -/

theorem execStart_keeps_memRead {s t : State} (h : execStart s = .next t) (a : Nat) : memRead t a = memRead s a := by
  rcases execStart_cases s with ⟨-, e⟩ | ⟨-, e⟩ <;> rw [e] at h <;> cases h <;> rfl

theorem execClear_keeps_memRead {s t : State} (h : execClear s = .next t) (a : Nat) : memRead t a = memRead s a := by
  rcases execClear_cases s with ⟨-, e⟩ | ⟨-, e⟩ <;> rw [e] at h <;> cases h <;> rfl

theorem dropAccess_keeps_memRead (e : DecodeError) (isRead : Bool) (s : State) (a : Nat) :
    memRead (dropAccess e isRead s) a = memRead s a := by
  cases e <;> cases isRead <;> rfl

theorem EngineEffect.keeps_memRead {s t : State} {i : Instr} (h : EngineEffect s i t) (a : Nat) :
    memRead t a = memRead s a := by
  obtain ⟨hl, hp, -⟩ := h.keeps
  exact memRead_congr hl hp a

/-- A host instruction changes what an entry reads as only as an accepted LUTWR of that entry, and the entry then reads
as the word written. -/
theorem DueEffect.memRead_changes {s t : State} {i : Instr} {a : Nat} (h : DueEffect s t i)
    (hne : memRead t a ≠ memRead s a) : s.state ≠ .run ∧ i = .lutwr a (memRead t a) := by
  cases h with
  | start h | ctrlStart h => exact absurd (execStart_keeps_memRead h a) hne
  | clear h | ctrlClear h => exact absurd (execClear_keeps_memRead h a) hne
  | @lutwr j w hr _ h =>
    subst h
    have haj : a = j := of_not_not fun ha => hne (memRead_memWrite_of_ne s w ha)
    subst haj
    exact ⟨hr, by rw [memRead_memWrite_self]⟩
  | _ => subst_vars; exact absurd rfl hne

/-! ## The default bus binding -/

/-- The default binding carries an access of either space by the bus access that encodes it, where the space's addresses
fit the window (20_memory.md R44). -/
theorem defaultAccess_encodeBus {a : Access} (h : a.addr < 32768) : defaultAccess (encodeBus a) = .ok a := by
  obtain ⟨space, n, d⟩ := a
  replace h : n < 32768 := h
  cases space with
  | csr =>
    have aligned : 4 * n % 4 = 0 := by omega
    have below : 4 * n < 0x20000 := by omega
    have inside : ¬0x40000 ≤ 4 * n := by omega
    simp [defaultAccess, encodeBus, busWindow, busLutBase, aligned, below, inside]
  | lut =>
    have aligned : (0x20000 + 4 * n) % 4 = 0 := by omega
    have inside : ¬0x40000 ≤ 0x20000 + 4 * n := by omega
    simp [defaultAccess, encodeBus, busWindow, busLutBase, aligned, inside]

theorem decode_encodeBus {c : Config} {a : Access} (hc : c.hostBinding = .defaultBus) (h : a.addr < 32768) :
    decode c (.bus (encodeBus a)) = decode c (.access a) := by
  simp only [decode, bindBus_defaultBus hc, defaultAccess_encodeBus h]

/-- What the default binding refuses decodes to an error whose effect is the refusal (20_memory.md R45). -/
theorem decode_bus_refused {c : Config} {b : BusAccess} (hc : c.hostBinding = .defaultBus)
    (hb : b.width ≠ 32 ∨ b.offset % 4 ≠ 0 ∨ 0x40000 ≤ b.offset) :
    ∃ e, decode c (.bus b) = .error e ∧ ∀ r s, dropAccess e r s = refuseAccess r s := by
  rcases defaultAccess_cases b with ⟨-, e, he, hd⟩ | ⟨hn, -⟩
  · exact ⟨e, by simp only [decode, bindBus_defaultBus hc, he], hd⟩
  · exact absurd hb hn

/-! ## The statements -/

/-- Settles O27: the write leaves its word at the index; LUTRD returns what stands there, and the engine's step executes
what it decodes to. -/
theorem acceptedWriteIsSeenByReadAndFetch : Obligations.AcceptedWriteIsSeenByReadAndFetch := by
  intro s t i w hs hi h
  obtain rfl : t = memWrite i w s := by
    rcases execLutwr_cases i w s with ⟨-, -, e⟩ | ⟨hr | hr, -⟩
    · exact (Host.Outcome.next.inj (e.symm.trans h)).symm
    · exact absurd hr hs
    · exact absurd hi (Nat.not_lt.2 hr)
  have written : memRead (memWrite i w s) i = w := memRead_memWrite_self s i w
  constructor
  · rcases execLutrd_cases i (memWrite i w s) with ⟨-, e⟩ | ⟨hn, -⟩
    · rw [written] at e
      exact e
    · exact absurd hi (Nat.not_lt.2 hn)
  · have fetched : nodeAt { memWrite i w s with state := .run, np := i, pending := [] } i = decodeNode s.cfg w :=
      congrArg (decodeNode s.cfg) written
    rw [engine_due_step rfl hi (.inl rfl), fetched]
    rfl

/-- Settles O34: of the turns that can be due only an accepted LUTWR's and a power-on's reach the LUT. -/
theorem lutEntryChangesOnlyByWriteOrPowerOn : Obligations.LutEntryChangesOnlyByWriteOrPowerOn := by
  intro s t a hs hne
  cases step_inv hs with
  | engine _ _ _ he => exact absurd (he.keeps_memRead a) hne
  | host hr hp hd he =>
    obtain ⟨hst, rfl⟩ := he.memRead_changes hne
    exact .inl ⟨hst, _, _, hr, hp, hd⟩
  | busDropped => exact absurd (dropAccess_keeps_memRead _ _ _ a) hne
  | powerOn hp => exact .inr ⟨_, hp⟩
  | engineRests | rst | stream => exact absurd rfl hne

/-- Settles O7: the two bus accesses are the encodings of the two abstract ones, which the default binding reads back. -/
theorem busBindingCarriesEveryAddress : Obligations.BusBindingCarriesEveryAddress := fun _ n d hc hn =>
  ⟨decode_encodeBus (a := ⟨.csr, n, d⟩) hc hn, decode_encodeBus (a := ⟨.lut, n, d⟩) hc hn⟩

/-- Settles O8: such an access decodes to an error, and its step is the refusal of a read or of a write. -/
theorem busBindingRefusesTheRest : Obligations.BusBindingRefusesTheRest := by
  intro s b es hc hp hb
  obtain ⟨e, hd, refuses⟩ := decode_bus_refused hc hb
  have refused : step s = .next (refuseAccess (Raw.bus b).isRead (setPending es s)) := by
    rw [step_of_host_decode_error (r := .bus b) rfl hp hd, refuses]
  constructor
  · intro hdata
    have read : (Raw.bus b).isRead = true := by simp [Raw.isRead, hdata]
    rw [refused, read]
    rfl
  · intro v hdata
    have write : (Raw.bus b).isRead = false := by simp [Raw.isRead, hdata]
    rw [refused, write]
    rfl

end Sys2Proof.Machine
end

section
/-! PROOFS. The encodings (spec 30_encoding.md R51 to R58, R65): each kind of node word by its KIND and its reserved bits,
the two directions of the round trip, the illegal words bit by bit, the masks at the default parameters, and the command
words. -/

namespace Sys2Proof

open Machine

/-! ## Slices, bit by bit and under a mask -/

/-- A field is not 0 exactly when one of its bits is set. -/
theorem slice_ne_zero_iff (w : Word) (hi lo : Nat) :
    slice w hi lo ≠ 0 ↔ ∃ k, lo ≤ k ∧ k < hi + 1 ∧ w.getLsbD k = true := by
  have bit : ∀ i, (slice w hi lo).testBit i = (decide (i < hi + 1 - lo) && w.getLsbD (lo + i)) := fun i => by
    rw [slice, Nat.testBit_mod_two_pow, Nat.testBit_shiftRight, BitVec.testBit_toNat]
  constructor
  · intro h
    obtain ⟨i, hi⟩ := Nat.exists_testBit_of_ne_zero h
    rw [bit, Bool.and_eq_true, decide_eq_true_iff] at hi
    exact ⟨lo + i, by omega, by omega, hi.2⟩
  · rintro ⟨k, hlo, hhi, hk⟩ h
    have set : (slice w hi lo).testBit (k - lo) = true := by
      rw [bit, Nat.add_sub_cancel' hlo, hk, decide_eq_true (by omega : k - lo < hi + 1 - lo)]
      rfl
    rw [h, Nat.zero_testBit] at set
    cases set

theorem kindOf_lt (w : Word) : kindOf w < 4 := slice_lt w 31 30

/-- KIND by its two bits (30_encoding.md R50). -/
theorem kindOf_eq_bits (w : Word) : kindOf w = 2 * (w.getLsbD 31).toNat + (w.getLsbD 30).toNat := by
  have := w.isLt
  rw [kindOf_eq, ← BitVec.testBit_toNat, ← BitVec.testBit_toNat, Nat.toNat_testBit, Nat.toNat_testBit]
  omega

/-- A node word as a number: KIND above the low 30 bits. -/
theorem toNat_eq_kindOf_add (w : Word) : w.toNat = 2 ^ 30 * kindOf w + w.toNat % 2 ^ 30 := by
  rw [kindOf_eq, Nat.div_add_mod]

/-- The word 0 is KIND 00 with none of the bits 29:0 set. -/
theorem eq_zero_iff_kindOf (w : Word) : w = 0 ↔ kindOf w = 0 ∧ slice w 29 0 = 0 := by
  rw [← BitVec.toNat_inj, kindOf_eq, slice_29_eq_zero w (Nat.zero_le 30)]
  change w.toNat = 0 ↔ _
  omega

/-- A mask of the bits 31:n keeps the word's quotient by 2^n. -/
theorem toNat_and_highMask (w : Word) (n : Nat) : (w &&& BitVec.allOnes 32 <<< n).toNat = w.toNat / 2 ^ n * 2 ^ n := by
  have : w.toNat / 2 ^ n * 2 ^ n < 2 ^ 32 := (Nat.div_mul_le_self _ _).trans_lt w.isLt
  rw [← BitVec.shiftLeft_ushiftRight, BitVec.toNat_shiftLeft, BitVec.toNat_ushiftRight, Nat.shiftRight_eq_div_pow,
    Nat.shiftLeft_eq, Nat.mod_eq_of_lt this]

/-- KIND and a reserved field 29:n that is 0 are one mask and match: of the bits 31:n none but KIND's is set. -/
theorem and_highMask_eq_iff (w : Word) {n k : Nat} (hn : n ≤ 30) (hk : k < 4) :
    w &&& BitVec.allOnes 32 <<< n = BitVec.ofNat 32 (2 ^ 30 * k) ↔ kindOf w = k ∧ slice w 29 n = 0 := by
  have le : 2 ^ n ≤ 2 ^ 30 := Nat.pow_le_pow_right (by decide) hn
  have parts := Nat.div_add_mod' w.toNat (2 ^ n)
  have rest_lt := Nat.mod_lt w.toNat (Nat.two_pow_pos n)
  rw [← BitVec.toNat_inj, toNat_and_highMask, BitVec.toNat_ofNat, Nat.mod_eq_of_lt (by omega : 2 ^ 30 * k < 2 ^ 32),
    kindOf_eq, slice_29_eq_zero w hn]
  constructor
  · intro h
    rw [h] at parts
    omega
  · rintro ⟨rfl, low_lt⟩
    have same_rest : w.toNat % 2 ^ 30 = w.toNat % 2 ^ n := by
      rw [← Nat.mod_mod_of_dvd w.toNat (Nat.pow_dvd_pow 2 hn), Nat.mod_eq_of_lt low_lt]
    omega

/-- A field is the word shifted down and masked to the field's width. -/
theorem slice_eq_toNat_and (w : Word) {hi lo : Nat} (h : hi < 32) :
    slice w hi lo = (w >>> lo &&& BitVec.ofNat 32 (2 ^ (hi + 1 - lo) - 1)).toNat := by
  have mask_lt : 2 ^ (hi + 1 - lo) - 1 < 2 ^ 32 :=
    (Nat.sub_lt (Nat.two_pow_pos _) Nat.one_pos).trans_le (Nat.pow_le_pow_right (by decide) (by omega))
  rw [slice, BitVec.toNat_and, BitVec.toNat_ushiftRight, BitVec.toNat_ofNat, Nat.mod_eq_of_lt mask_lt,
    Nat.and_two_pow_sub_one_eq_mod]

/-! ## The four kinds of node word (30_encoding.md R54, R55) -/

theorem decodeNode_eq_empty_iff (c : Config) (w : Word) : decodeNode c w = .empty ↔ w = 0 := by
  rcases decodeNode_cases c w with ⟨h0, e⟩ | ⟨h0, -, -, e⟩ | ⟨h0, -, -, e⟩ | ⟨h0, -, -, e⟩
  · exact iff_of_true e h0
  all_goals exact iff_of_false (by simp [e]) h0

theorem decodeNode_eq_leaf_iff (c : Config) (w : Word) (x : Nat) :
    decodeNode c w = .leaf x ↔ (kindOf w = 1 ∧ slice w 29 c.symW = 0) ∧ x = slice w (c.symW - 1) 0 := by
  rcases decodeNode_cases c w with ⟨h0, e⟩ | ⟨-, hk, hz, e⟩ | ⟨-, hk, -, e⟩ | ⟨-, hn, -, e⟩
  · obtain ⟨hk, -⟩ := (eq_zero_iff_kindOf w).1 h0
    simp [e, hk]
  · simp [e, hk, hz, eq_comm]
  · simp [e, hk]
  · simp only [e, reduceCtorEq, hn, false_and]

theorem decodeNode_eq_node_iff (c : Config) (w : Word) (l r : Nat) :
    decodeNode c w = .node l r ↔ (kindOf w = 2 ∧ slice w 29 (2 * c.idxW) = 0) ∧
      l = slice w (2 * c.idxW - 1) c.idxW ∧ r = slice w (c.idxW - 1) 0 := by
  rcases decodeNode_cases c w with ⟨h0, e⟩ | ⟨-, hk, -, e⟩ | ⟨-, hk, hz, e⟩ | ⟨-, -, hn, e⟩
  · obtain ⟨hk, -⟩ := (eq_zero_iff_kindOf w).1 h0
    simp [e, hk]
  · simp [e, hk]
  · simp [e, hk, hz, eq_comm]
  · simp only [e, reduceCtorEq, hn, false_and]

/-- A word is a LEAF exactly when KIND is 01 and the reserved field 0. -/
theorem exists_decodeNode_leaf_iff (c : Config) (w : Word) :
    (∃ x, decodeNode c w = .leaf x) ↔ kindOf w = 1 ∧ slice w 29 c.symW = 0 := by
  simp [decodeNode_eq_leaf_iff]

/-- A word is a NODE exactly when KIND is 10 and the reserved field 0. -/
theorem exists_decodeNode_node_iff (c : Config) (w : Word) :
    (∃ l r, decodeNode c w = .node l r) ↔ kindOf w = 2 ∧ slice w 29 (2 * c.idxW) = 0 := by
  simp [decodeNode_eq_node_iff]

/-- The four cases of R55 by KIND and the field that must be 0 under it. -/
theorem decodeNode_eq_illegal_iff (c : Config) (w : Word) :
    decodeNode c w = .illegal w ↔
      kindOf w = 3 ∨ (kindOf w = 0 ∧ slice w 29 0 ≠ 0) ∨ (kindOf w = 1 ∧ slice w 29 c.symW ≠ 0) ∨
        (kindOf w = 2 ∧ slice w 29 (2 * c.idxW) ≠ 0) := by
  have hlt := kindOf_lt w
  rcases decodeNode_cases c w with ⟨h0, e⟩ | ⟨-, hk, hz, e⟩ | ⟨-, hk, hz, e⟩ | ⟨h0, hleaf, hnode, e⟩
  · obtain ⟨hk, hz⟩ := (eq_zero_iff_kindOf w).1 h0
    simp [e, hk, hz]
  · simp [e, hk, hz]
  · simp [e, hk, hz]
  · rw [ne_eq, eq_zero_iff_kindOf] at h0
    simp only [e, true_iff]
    omega

/-- The well-formed illegal words are the words that decode as illegal. -/
theorem illegalWord_iff {c : Config} (hc : c.Ok) (w : Word) : illegalWord c w = true ↔ decodeNode c w = .illegal w := by
  obtain ⟨-, hs, -, hi⟩ := hc
  have low_zero : slice w 29 0 = 0 ↔ w.toNat % 2 ^ 30 < 2 ^ 0 := slice_29_eq_zero w (Nat.zero_le 30)
  have low_sym : slice w 29 c.symW = 0 ↔ w.toNat % 2 ^ 30 < 2 ^ c.symW := slice_29_eq_zero w hs
  have low_idx : slice w 29 (2 * c.idxW) = 0 ↔ w.toNat % 2 ^ 30 < 2 ^ (2 * c.idxW) := slice_29_eq_zero w (by omega)
  simp only [decodeNode_eq_illegal_iff, illegalWord, ← kindOf_eq, ne_eq, low_zero, low_sym, low_idx, Nat.not_lt,
    Bool.or_eq_true, Bool.and_eq_true, beq_iff_eq, bne_iff_ne, decide_eq_true_eq, pow_zero, Nat.one_le_iff_ne_zero,
    or_assoc]

/-! ## The command words (30_encoding.md R58) -/

/-- The reserved command values are 3 and those with a bit of 31:2 set. -/
theorem three_le_toNat_iff (v : Word) :
    3 ≤ v.toNat ↔ v = 0x00000003#32 ∨ ∃ k, 2 ≤ k ∧ k < 32 ∧ v.getLsbD k = true := by
  have high : slice v 31 2 = v.toNat / 4 := by
    have := v.isLt
    rw [slice, Nat.shiftRight_eq_div_pow]
    omega
  rw [← slice_ne_zero_iff v 31 2, high, ← BitVec.toNat_inj]
  change _ ↔ v.toNat = 3 ∨ _
  omega

/-- The four kinds of command word exclude each other. -/
theorem decodeCommand_eq_iff (v : Word) :
    (decodeCommand v = .nop ↔ v = 0x00000000#32) ∧ (decodeCommand v = .start ↔ v = 0x00000001#32) ∧
      (decodeCommand v = .clear ↔ v = 0x00000002#32) ∧ (decodeCommand v = .reservedCmd v ↔ 3 ≤ v.toNat) := by
  rcases decodeCommand_cases v with ⟨rfl, e⟩ | ⟨rfl, e⟩ | ⟨rfl, e⟩ | ⟨hv, e⟩
  · simp [e]
  · simp [e]
  · simp [e]
  · have ne : ∀ k : Word, k.toNat < 3 → v ≠ k := by
      rintro k hk rfl
      omega
    simp [e, hv, ne 0x00000000#32 (by decide), ne 0x00000001#32 (by decide), ne 0x00000002#32 (by decide)]

/-! ## The round trip -/

/-- Settles O1: the node words by the decoder on the encoder's numbers, an illegal word because it is one, a reserved
command because it is none of the other three. -/
theorem decodeOfEncodeIsTheInstruction : Obligations.DecodeOfEncodeIsTheInstruction := by
  intro c hc i hi
  cases i with
  | leaf x => exact congrArg Except.ok (decodeNode_encodeLeaf hc (wellFormed_leaf.1 hi))
  | node l r =>
    obtain ⟨hl, hr⟩ := wellFormed_node.1 hi
    exact congrArg Except.ok (decodeNode_encodeNode hc hl hr)
  | illegal w => exact congrArg Except.ok ((illegalWord_iff hc w).1 hi)
  | reservedCmd v =>
    obtain ⟨-, -, -, reserved⟩ := decodeCommand_eq_iff v
    exact congrArg Except.ok (reserved.2 (wellFormed_reservedCmd.1 hi))
  | empty | nop | start | clear | csrrd | csrwr | lutrd | lutwr => rfl

/-- A LEAF word is the encoding of its symbol: KIND 01, and the low 30 bits are the symbol. -/
theorem encodeLeaf_of_decodeNode {c : Config} (hc : c.Ok) {w : Word} {x : Nat} (h : decodeNode c w = .leaf x) :
    encodeLeaf x = w := by
  obtain ⟨h1, h30, -, -⟩ := hc
  obtain ⟨⟨hk, hz⟩, rfl⟩ := (decodeNode_eq_leaf_iff c w x).1 h
  have low_lt : w.toNat % 2 ^ 30 < 2 ^ c.symW := (slice_29_eq_zero w h30).1 hz
  have symbol : slice w (c.symW - 1) 0 = w.toNat % 2 ^ 30 := by
    rw [slice_zero w c.symW h1, ← Nat.mod_mod_of_dvd w.toNat (Nat.pow_dvd_pow 2 h30), Nat.mod_eq_of_lt low_lt]
  have word := toNat_eq_kindOf_add w
  rw [hk] at word
  apply BitVec.eq_of_toNat_eq
  rw [symbol, encodeLeaf_toNat (Nat.mod_lt _ (by decide))]
  omega

/-- A NODE word is the encoding of its child fields: KIND 10, and the low 30 bits are the two fields side by side. -/
theorem encodeNode_of_decodeNode {c : Config} (hc : c.Ok) {w : Word} {l r : Nat} (h : decodeNode c w = .node l r) :
    encodeNode c l r = w := by
  obtain ⟨hl, hr⟩ := decodeNode_node_lt hc h
  have number := encodeNode_toNat hc hl hr
  obtain ⟨-, -, h1, h15⟩ := hc
  obtain ⟨⟨hk, hz⟩, hleft, hright⟩ := (decodeNode_eq_node_iff c w l r).1 h
  have low_lt : w.toNat % 2 ^ 30 < 2 ^ (2 * c.idxW) := (slice_29_eq_zero w (by omega)).1 hz
  have right : r = w.toNat % 2 ^ 30 % 2 ^ c.idxW := by
    rw [hright, slice_zero w c.idxW h1, Nat.mod_mod_of_dvd w.toNat (Nat.pow_dvd_pow 2 (by omega))]
  have left : l = w.toNat % 2 ^ 30 / 2 ^ c.idxW := by
    have two : 2 ^ (2 * c.idxW) = 2 ^ c.idxW * 2 ^ c.idxW := by rw [← pow_add]; congr 1; omega
    rw [hleft, slice, Nat.shiftRight_eq_div_pow, show 2 * c.idxW - 1 + 1 - c.idxW = c.idxW by omega,
      ← Nat.mod_mul_right_div_self, ← two, ← Nat.mod_mod_of_dvd w.toNat (Nat.pow_dvd_pow 2 (by omega : 2 * c.idxW ≤ 30)),
      Nat.mod_eq_of_lt low_lt]
  have fields : 2 ^ c.idxW * l + r = w.toNat % 2 ^ 30 := by rw [left, right, Nat.div_add_mod]
  have word := toNat_eq_kindOf_add w
  rw [hk] at word
  apply BitVec.eq_of_toNat_eq
  omega

/-- Settles O2: each kind of word is the encoding of the fields read from it, an illegal word is kept whole. -/
theorem encodeOfDecodeIsTheNodeWord : Obligations.EncodeOfDecodeIsTheNodeWord := by
  intro c hc w
  rcases decodeNode_shape c w with e | ⟨x, e⟩ | ⟨l, r, e⟩ | e <;> rw [e]
  · exact ⟨congrArg Raw.node ((decodeNode_eq_empty_iff c w).1 e).symm, rfl⟩
  · exact ⟨congrArg Raw.node (encodeLeaf_of_decodeNode hc e), wellFormed_leaf.2 (decodeNode_leaf_lt hc e)⟩
  · exact ⟨congrArg Raw.node (encodeNode_of_decodeNode hc e), wellFormed_node.2 (decodeNode_node_lt hc e)⟩
  · exact ⟨rfl, (illegalWord_iff hc w).2 e⟩

/-! ## The words by their bits and masks -/

/-- Settles O3: the four cases by KIND and reserved field, with KIND and the field read bit by bit. -/
theorem illegalWordsAreTheFourCases : Obligations.IllegalWordsAreTheFourCases := by
  intro c _ w
  rw [decodeNode_eq_illegal_iff, kindOf_eq_bits]
  simp only [slice_ne_zero_iff]
  cases w.getLsbD 31 <;> cases w.getLsbD 30 <;> simp [Nat.lt_succ_iff]

/-- Settles O4: each kind by its KIND and reserved field, each of the two by one mask, each field by its own mask. -/
theorem nodeWordsByMaskAndMatch : Obligations.NodeWordsByMaskAndMatch := by
  intro w
  refine ⟨decodeNode_eq_empty_iff _ w, ?_, ?_, ?_, ?_⟩
  · rw [exists_decodeNode_leaf_iff]
    exact (and_highMask_eq_iff w (n := 16) (k := 1) (by decide) (by decide)).symm
  · rw [exists_decodeNode_node_iff]
    exact (and_highMask_eq_iff w (n := 24) (k := 2) (by decide) (by decide)).symm
  · intro x h
    obtain ⟨-, rfl⟩ := (decodeNode_eq_leaf_iff _ w x).1 h
    exact slice_eq_toNat_and w (hi := 15) (lo := 0) (by decide)
  · intro l r h
    obtain ⟨-, rfl, rfl⟩ := (decodeNode_eq_node_iff _ w l r).1 h
    exact ⟨slice_eq_toNat_and w (hi := 23) (lo := 12) (by decide), slice_eq_toNat_and w (hi := 11) (lo := 0) (by decide)⟩

/-- Settles O5: a command decodes by its word, a value from 3 up being 3 or one with a bit of 31:2 set; an access by its
space and direction. -/
theorem commandWordsAreThese : Obligations.CommandWordsAreThese := by
  intro c v
  obtain ⟨nop, start, clear, reserved⟩ := decodeCommand_eq_iff v
  rw [three_le_toNat_iff] at reserved
  simp only [decode, Except.ok.injEq]
  exact ⟨nop, start, clear, reserved, fun _ => ⟨rfl, rfl, rfl, rfl⟩⟩

/-- Settles O6: each word by evaluation. -/
theorem writtenOutWordsDecode : Obligations.WrittenOutWordsDecode := by
  unfold Obligations.WrittenOutWordsDecode
  decide

end Sys2Proof
end

section
/-! PROOFS. The shape of what the LUT holds (spec 30_encoding.md R60, R61): the Code of a reachable index, and two layouts
of one tree, run side by side. -/

namespace Sys2Proof.Machine

/-! ## Codes (30_encoding.md R60) -/

/-- A walk to a NODE goes on to each of its children that is present. -/
theorem HasCode.snoc {t : Nat → Instr} {p l r : Nat} {code : Code} {b : Bool} (h : HasCode t p code)
    (ht : t p = .node l r) (h0 : childOf b l r ≠ 0) : HasCode t (childOf b l r) (code ++ [b]) := by
  rw [HasCode, walkCode_append, h]
  exact walkCode_cons.2 ⟨l, r, ht, h0, rfl⟩

/-- Every index reachable from the root has a Code. -/
theorem Reach.exists_hasCode {t : Nat → Instr} {p : Nat} (h : Reach t p) : ∃ code, HasCode t p code := by
  induction h with
  | root => exact ⟨[], rfl⟩
  | left _ ht h0 ih =>
    obtain ⟨code, hc⟩ := ih
    exact ⟨code ++ [false], hc.snoc ht h0⟩
  | right _ ht h0 ih =>
    obtain ⟨code, hc⟩ := ih
    exact ⟨code ++ [true], hc.snoc ht h0⟩

/-- The root's only Code is the empty one. -/
theorem HasCode.eq_nil {t : Nat → Instr} {code : Code} (h : HasCode t 0 code) : code = [] := by
  cases code with
  | nil => rfl
  | cons b code => exact absurd rfl (walkCode_ne_zero h)

/-- Where every index has one parent and one side, two Codes of an index are the same, bit by bit from their ends. -/
theorem PartialTree.hasCode_unique {t : Nat → Instr} (ht : PartialTree t) {p : Nat} {a b : Code} (ha : HasCode t p a)
    (hb : HasCode t p b) : a = b := by
  induction a using List.reverseRecOn generalizing p b with
  | nil =>
    cases ha
    exact hb.eq_nil.symm
  | append_singleton a x ih =>
    induction b using List.reverseRecOn with
    | nil =>
      cases hb
      exact ha.eq_nil
    | append_singleton b y _ =>
      obtain ⟨pa, hpa, childA⟩ := walkCode_snoc ha
      obtain ⟨pb, hpb, childB⟩ := walkCode_snoc hb
      have below : p ≠ 0 := by
        rintro rfl
        exact absurd ha.eq_nil (by simp)
      obtain ⟨parent, side, -, only⟩ := ht.oneParent p (walkCode_reach .root ha) below
      obtain ⟨rfl, rfl⟩ := only pa x (walkCode_reach .root hpa) childA
      obtain ⟨rfl, rfl⟩ := only pb y (walkCode_reach .root hpb) childB
      rw [ih hpa hpb]

/-- Settles O48: a Code exists along the way the index was reached, and there is one way only. -/
theorem reachableIndexHasExactlyOneCode : Obligations.ReachableIndexHasExactlyOneCode := by
  intro t ht p hp
  obtain ⟨code, hc⟩ := hp.exists_hasCode
  exact ⟨code, hc, fun _ hc' => ht.hasCode_unique hc' hc⟩

/-! ## Two layouts of one tree (30_encoding.md R61) -/

/-- A node word answers the state its effect names. -/
theorem EngineEffect.exec_eq {s t : State} {i : Instr} (h : EngineEffect s i t) : exec i s = .next t := by
  cases h with
  | empty | illegal => rfl
  | leafRoot h0 | leafBelow h0 => simp [exec, execLeaf, h0]
  | nodeEnd hb h0 | nodeTruncated hb h0 => simp [exec, execNode, bsTake, hb, h0]
  | nodeNull hb h0 | nodeMoves hb h0 => simp [exec, execNode, bsTake, hb, h0, setStream]

/-- Only EMPTY is an EMPTY of another layout; likewise below for the other three kinds of node word. -/
theorem SameWord.eq_empty {R : Nat → Nat → Prop} {j : Instr} (h : SameWord R .empty j) : j = .empty := by
  cases j with
  | empty => rfl
  | _ => exact h.elim

theorem SameWord.eq_leaf {R : Nat → Nat → Prop} {x : Nat} {j : Instr} (h : SameWord R (.leaf x) j) : j = .leaf x := by
  cases j with
  | leaf y => exact congrArg Instr.leaf (Eq.symm h)
  | _ => exact h.elim

theorem SameWord.eq_illegal {R : Nat → Nat → Prop} {w : Word} {j : Instr} (h : SameWord R (.illegal w) j) :
    ∃ w', j = .illegal w' := by
  cases j with
  | illegal w' => exact ⟨w', rfl⟩
  | _ => exact h.elim

theorem SameWord.eq_node {R : Nat → Nat → Prop} {l r : Nat} {j : Instr} (h : SameWord R (.node l r) j) :
    ∃ l' r', j = .node l' r' ∧ ∀ b, SameChild R (childOf b l r) (childOf b l' r') := by
  cases j with
  | node l' r' => exact ⟨l', r', rfl, fun b => by cases b; exacts [h.1, h.2]⟩
  | _ => exact h.elim

/-- Two runs that began at `s0` and `u0` are alike at `s` and `u`: all that may be observed of them agrees, and the node
pointers correspond. -/
structure RunAlike (R : Nat → Nat → Prop) (s0 u0 s u : State) : Prop where
  state : s.state = u.state
  cause : s.cause = u.cause
  bits : s.bits = u.bits
  np : R s.np u.np
  out : ∃ syms, s.out = s0.out ++ syms ∧ u.out = u0.out ++ syms

namespace RunAlike

variable {R : Nat → Nat → Prop} {s0 u0 s u : State} (h : RunAlike R s0 u0 s u)

include h

theorem raiseFault (c : Cause) : RunAlike R s0 u0 (raiseFault c s) (raiseFault c u) := ⟨rfl, rfl, h.bits, h.np, h.out⟩

theorem endRun : RunAlike R s0 u0 (endRun s) (endRun u) := ⟨rfl, h.cause, h.bits, h.np, h.out⟩

theorem moveTo {p q : Nat} (hpq : R p q) : RunAlike R s0 u0 (moveTo p s) (moveTo q u) :=
  ⟨h.state, h.cause, h.bits, hpq, h.out⟩

theorem setStream (bs : List Bool) : RunAlike R s0 u0 (setStream bs s) (setStream bs u) :=
  ⟨h.state, h.cause, rfl, h.np, h.out⟩

theorem symOut (x : Nat) : RunAlike R s0 u0 (symOut x s) (symOut x u) := by
  obtain ⟨syms, hs, hu⟩ := h.out
  exact ⟨h.state, h.cause, h.bits, h.np, syms ++ [x], by simp [hs], by simp [hu]⟩

/-- What a word does in one layout, the word that corresponds to it does in the other, and the runs stay alike: the two
tests on NP agree because the root corresponds to the root alone, the two tests on a child because an absent child does
to an absent one. -/
theorem effect {s' : State} {i j : Instr} (root : R 0 0) (rootOnly : ∀ p q, R p q → (p = 0 ↔ q = 0))
    (word : SameWord R i j) (he : EngineEffect s i s') : ∃ u', EngineEffect u j u' ∧ RunAlike R s0 u0 s' u' := by
  have np : s.np = 0 ↔ u.np = 0 := rootOnly _ _ h.np
  cases he with
  | empty =>
    obtain rfl := word.eq_empty
    exact ⟨_, .empty, h.raiseFault _⟩
  | illegal =>
    obtain ⟨w', rfl⟩ := word.eq_illegal
    exact ⟨_, .illegal, h.raiseFault _⟩
  | leafRoot h0 =>
    obtain rfl := word.eq_leaf
    exact ⟨_, .leafRoot (np.1 h0), (h.symOut _).endRun⟩
  | leafBelow h0 =>
    obtain rfl := word.eq_leaf
    exact ⟨_, .leafBelow (mt np.2 h0), (h.symOut _).moveTo root⟩
  | nodeEnd hb h0 =>
    obtain ⟨l', r', rfl, -⟩ := word.eq_node
    exact ⟨_, .nodeEnd (h.bits ▸ hb) (np.1 h0), h.endRun⟩
  | nodeTruncated hb h0 =>
    obtain ⟨l', r', rfl, -⟩ := word.eq_node
    exact ⟨_, .nodeTruncated (h.bits ▸ hb) (mt np.2 h0), h.raiseFault _⟩
  | @nodeNull l r b rest hb h0 =>
    obtain ⟨l', r', rfl, child⟩ := word.eq_node
    rcases child b with ⟨-, h0'⟩ | ⟨hne, -, -⟩
    · exact ⟨_, .nodeNull (h.bits ▸ hb) h0', (h.setStream rest).raiseFault _⟩
    · exact absurd h0 hne
  | @nodeMoves l r b rest hb h0 =>
    obtain ⟨l', r', rfl, child⟩ := word.eq_node
    rcases child b with ⟨h0', -⟩ | ⟨-, hne, related⟩
    · exact absurd h0' h0
    · exact ⟨_, .nodeMoves (h.bits ▸ hb) hne, (h.setStream rest).moveTo related⟩

end RunAlike

/-- A machine on which nothing but the engine steps, and whose LUT holds the layout `t`. -/
structure HoldsLayout (t : Nat → Instr) (s : State) : Prop where
  inv : s.Inv
  pending : s.pending = []
  words : nodeAt s = t

/-- A node word keeps the layout it stands in. -/
theorem HoldsLayout.step {t : Nat → Instr} {s s' : State} {i : Instr} (h : HoldsLayout t s) (hs : step s = .next s')
    (he : EngineEffect s i s') : HoldsLayout t s' := by
  obtain ⟨lut, powerOns, cfg, -, -, pending⟩ := he.keeps
  exact ⟨everyStepKeepsTheInvariant s s' h.inv hs, pending.trans h.pending,
    (nodeAt_congr lut powerOns cfg).trans h.words⟩

/-- One step of two runs that are alike: both take it, and stay alike. -/
theorem RunAlike.step {R : Nat → Nat → Prop} {t v : Nat → Instr} {s0 u0 s u : State} (shape : SameShape R t v)
    (hs : HoldsLayout t s) (hu : HoldsLayout v u) (h : RunAlike R s0 u0 s u) (hr : s.state = .run) :
    ∃ s' u', step s = .next s' ∧ step u = .next u' ∧
      HoldsLayout t s' ∧ HoldsLayout v u' ∧ RunAlike R s0 u0 s' u' := by
  obtain ⟨s', step_s, effect_s⟩ := engine_step hr hs.inv.npRange hs.pending
  have word : SameWord R (nodeAt s s.np) (nodeAt u u.np) := by
    rw [hs.words, hu.words]
    exact shape.word _ _ h.np
  obtain ⟨u', effect_u, alike⟩ := h.effect shape.root shape.rootOnly word effect_s
  have step_u : Machine.step u = .next u' := by
    have tail : setPending u.pending.tail u = u := by rw [hu.pending, List.tail_nil, ← hu.pending]; rfl
    rw [engine_due_step (h.state ▸ hr) hu.inv.npRange (.inl hu.pending), tail, effect_u.exec_eq]
  exact ⟨s', u', step_s, step_u, hs.step step_s effect_s, hu.step step_u effect_u, alike⟩

/-- Two runs that are alike stay alike for every number of steps; once they have ended both rest. -/
theorem RunAlike.steps {R : Nat → Nat → Prop} {t v : Nat → Instr} {s0 u0 s u : State} (shape : SameShape R t v)
    (hs : HoldsLayout t s) (hu : HoldsLayout v u) (h : RunAlike R s0 u0 s u) (k : Nat) :
    ∃ s' u', steps k s = .next s' ∧ steps k u = .next u' ∧ RunAlike R s0 u0 s' u' := by
  induction k generalizing s u with
  | zero => exact ⟨s, u, rfl, rfl, h⟩
  | succ k ih =>
    by_cases hr : s.state = .run
    · obtain ⟨s', u', step_s, step_u, hs', hu', h'⟩ := h.step shape hs hu hr
      rw [steps_succ step_s, steps_succ step_u]
      exact ih hs' hu' h'
    · exact ⟨s, u, steps_rest hr hs.pending _, steps_rest (h.state ▸ hr) hu.pending _, h⟩

/-- Settles O44: the two runs begin alike, since outside FAULT the CAUSE of either is 0, and stay so. -/
theorem layoutOfTheTreeDoesNotMatter : Obligations.LayoutOfTheTreeDoesNotMatter := by
  intro R s u hs hu shape hrs hru nps npu ps pu hb k
  have cause : s.cause = u.cause := by
    rw [hs.cause_eq_none (by simp [hrs]), hu.cause_eq_none (by simp [hru])]
  have start : RunAlike R s u s u :=
    ⟨hrs.trans hru.symm, cause, hb, by rw [nps, npu]; exact shape.root, [], by simp, by simp⟩
  obtain ⟨s', u', steps_s, steps_u, h⟩ := start.steps shape ⟨hs, ps, rfl⟩ ⟨hu, pu, rfl⟩ k
  exact ⟨s', u', steps_s, steps_u, h.state, h.cause, h.bits, h.np, h.out⟩

end Sys2Proof.Machine
end

section
/-! PROOFS. The node words (spec 40_node_words.md), one engine step at a time: which step the engine takes, what each word
does and leaves unchanged, and the normal end of a run. -/

namespace Sys2Proof.Machine

/-! ## The engine's turn -/

/-- With nothing due, taking a turn off the list changes nothing. -/
theorem setPending_tail_of_nil {s : State} (hp : s.pending = []) : setPending s.pending.tail s = s := by
  rw [hp, List.tail_nil, ← hp]
  rfl

/-- A step in which the engine is due is its turn, taken off the list. -/
theorem step_of_engineDue {s : State} (hd : s.EngineDue) : step s = engineTurn (setPending s.pending.tail s) := by
  rcases hd with hp | ⟨es, hp⟩
  · rw [setPending_tail_of_nil hp, step_nil hp]
  · rw [step_cons hp, hp]
    rfl

/-- A node word that answers a next state has done one of the things it can do. -/
theorem engineEffect_of_exec {i : Instr} {s t : State}
    (hi : i = .empty ∨ (∃ x, i = .leaf x) ∨ (∃ l r, i = .node l r) ∨ ∃ w, i = .illegal w) (h : exec i s = .next t) :
    EngineEffect s i t := by
  rcases hi with rfl | ⟨x, rfl⟩ | ⟨l, r, rfl⟩ | ⟨w, rfl⟩
  · cases h
    exact .empty
  · rcases execLeaf_cases x s with ⟨h0, e⟩ | ⟨h0, e⟩ <;> cases e.symm.trans h
    · exact .leafRoot h0
    · exact .leafBelow h0
  · rcases execNode_cases l r s with ⟨hb, h0, e⟩ | ⟨hb, h0, e⟩ | ⟨b, rest, hb, h0, e⟩ | ⟨b, rest, hb, h0, e⟩ <;>
      cases e.symm.trans h
    · exact .nodeEnd hb h0
    · exact .nodeTruncated hb h0
    · exact .nodeNull hb h0
    · exact .nodeMoves hb h0
  · cases h
    exact .illegal

/-- A node word ends a run normally exactly at the root, as a NODE with no bit or as a LEAF (40_node_words.md R71). -/
theorem EngineEffect.state_eq_done_iff {s t : State} {i : Instr} (he : EngineEffect s i t) (hr : s.state = .run) :
    t.state = .done ↔ s.np = 0 ∧ ((∃ l r, i = .node l r ∧ s.bits = []) ∨ ∃ x, i = .leaf x) := by
  cases he with
  | leafRoot h0 => simp [h0]
  | leafBelow h0 => simp [h0, hr]
  | nodeEnd hb h0 => simp [hb, h0]
  | nodeTruncated _ h0 => simp [h0]
  | nodeNull hb => simp [hb]
  | nodeMoves hb => simp [hb, hr]
  | empty | illegal => simp

/-! ## The statements -/

/-- Settles O28: all four words leave the LUT, HOSTERR and the model's own fields alone, and no branch of a word writes a
field that its kind leaves alone. -/
theorem nodeWordsFrame : Obligations.NodeWordsFrame := by
  intro i s t hi h
  have he := engineEffect_of_exec hi h
  obtain ⟨lut, powerOns, cfg, hostErr, returned, pending⟩ := he.keeps
  refine ⟨he.keeps_memRead, lut, hostErr, cfg, powerOns, returned, pending, ?_, ?_, ?_⟩
  · rintro (rfl | ⟨w, rfl⟩) <;> cases he <;> exact ⟨rfl, rfl, rfl⟩
  · rintro ⟨x, rfl⟩
    cases he <;> exact ⟨rfl, rfl⟩
  · rintro ⟨l, r, rfl⟩
    cases he <;> rfl

/-- Settles O35: the step is a node word's, which says when it ends the run; NP and CAUSE are then 0 by the invariant. -/
theorem runEndsDoneInExactlyTwoWays : Obligations.RunEndsDoneInExactlyTwoWays := by
  intro s t h hr hd hs
  obtain ⟨es, -, he⟩ := engine_step_inv hr hd hs
  have inv := everyStepKeepsTheInvariant s t h hs
  refine ⟨(he.state_eq_done_iff hr).trans (and_congr_right fun h0 => ?_), fun done => ⟨?_, ?_⟩⟩
  · rw [show s.np = 0 from h0, setPending_bits]
  · exact inv.npAtRest (.inr done)
  · exact inv.cause_eq_none (by simp [done])

/-- Settles O9: the engine's turn is the meaning of the word at NP, or stops where NP is no index. -/
theorem engineStepRunsTheFetchedWord : Obligations.EngineStepRunsTheFetchedWord := by
  intro s i hr
  refine ⟨fun hn hd => ?_, fun hn due => ?_⟩
  · have fetched : nodeAt s s.np = i := Except.ok.inj hd
    refine ⟨fun hp => ?_, fun es hp => ?_⟩
    · rw [engine_due_step hr hn (.inl hp), fetched, setPending_tail_of_nil hp]
    · rw [engine_due_step hr hn (.inr ⟨es, hp⟩), fetched, hp]
      rfl
  · rw [step_of_engineDue due]
    rcases engineTurn_cases (setPending s.pending.tail s) with ⟨h, -⟩ | ⟨-, -, e⟩ | ⟨-, h, -⟩
    · exact absurd hr h
    · exact e
    · exact absurd hn (Nat.not_le.2 h)

/-- Settles O10: outside RUN the engine's turn answers the state it finds. -/
theorem engineRestsOutsideRun : Obligations.EngineRestsOutsideRun := by
  intro s hs
  have notRun : s.state ≠ .run := by rcases hs with e | e | e <;> simp [e]
  have rests : s.EngineDue → step s = .next (setPending s.pending.tail s) := fun due => by
    rw [step_of_engineDue due]
    rcases engineTurn_cases (setPending s.pending.tail s) with ⟨-, e⟩ | ⟨hr, -, -⟩ | ⟨hr, -, -⟩
    · exact e
    · exact absurd hr notRun
    · exact absurd hr notRun
  refine ⟨fun hp => ?_, fun es hp => ?_⟩
  · rw [rests (.inl hp), setPending_tail_of_nil hp]
  · rw [rests (.inr ⟨es, hp⟩), hp]
    rfl

/-- Settles O15: the two branches of LEAF. -/
theorem leafEmitsItsSymbol : Obligations.LeafEmitsItsSymbol := fun _ _ =>
  ⟨fun h => (EngineEffect.leafRoot h).exec_eq, fun h => (EngineEffect.leafBelow h).exec_eq⟩

/-- Settles O16: the branches of NODE, those with a bit once for each side. -/
theorem nodeTakesOneBitAndSelectsTheChild : Obligations.NodeTakesOneBitAndSelectsTheChild := fun _ _ _ =>
  ⟨fun hb h => (EngineEffect.nodeEnd hb h).exec_eq,
    fun hb h => (EngineEffect.nodeTruncated hb h).exec_eq,
    fun _ hb h => (EngineEffect.nodeMoves (b := false) hb h).exec_eq,
    fun _ hb h => (EngineEffect.nodeMoves (b := true) hb h).exec_eq,
    fun _ hb h => (EngineEffect.nodeNull (b := false) hb h).exec_eq,
    fun _ hb h => (EngineEffect.nodeNull (b := true) hb h).exec_eq⟩

/-- Settles O17: the zero word decodes to EMPTY, and the engine's step executes what the word decodes to. -/
theorem emptyWordFaults : Obligations.EmptyWordFaults := by
  have decodes : ∀ c, decodeNode c 0x00000000#32 = .empty := fun c => (decodeNode_eq_empty_iff c _).2 rfl
  refine ⟨decodes, fun _ => EngineEffect.empty.exec_eq, fun s hr hn hw due => ?_⟩
  have fetched : nodeAt s s.np = .empty := by rw [nodeAt, hw, decodes]
  rw [engine_due_step hr hn due, fetched]
  exact EngineEffect.empty.exec_eq

/-- Settles O18: the engine's step executes what the word decodes to. -/
theorem illegalWordFaults : Obligations.IllegalWordFaults := by
  refine ⟨fun _ _ => EngineEffect.illegal.exec_eq, fun s hr hn hw due => ?_⟩
  rw [engine_due_step hr hn due, nodeAt, hw]
  exact EngineEffect.illegal.exec_eq

/-- Settles O49: the word at the root is a LEAF, whose meaning there emits its symbol and ends the run. -/
theorem singleLeafRunIsOneStep : Obligations.SingleLeafRunIsOneStep := by
  intro s x hr h0 hx due
  have hn : s.np < s.cfg.nodeCount := h0 ▸ nodeCount_pos s.cfg
  have fetched : nodeAt s s.np = .leaf x := by rw [h0, hx]
  rw [engine_due_step hr hn due, fetched]
  exact (EngineEffect.leafRoot (s := setPending s.pending.tail s) h0).exec_eq

end Sys2Proof.Machine
end

section
/-! PROOFS. Whole runs (spec 40_node_words.md section 10): the bound on their length, and the decoding of a stream of
Codes, complete and cut short. Each run goes on in a LUT that holds one layout throughout (`HoldsLayout`). -/

namespace Sys2Proof.Machine

/-- In RUN the step is what the word at NP can do, and the layout stays. -/
theorem HoldsLayout.step_of_effect {t : Nat → Instr} {s u : State} {i : Instr} (h : HoldsLayout t s)
    (hr : s.state = .run) (word : t s.np = i) (he : EngineEffect s i u) :
    Machine.step s = .next u ∧ HoldsLayout t u := by
  obtain ⟨u', hs, he'⟩ := engine_step hr h.inv.npRange h.pending
  rw [h.words, word] at he'
  obtain rfl : u' = u := Host.Outcome.next.inj (he'.exec_eq.symm.trans he.exec_eq)
  exact ⟨hs, h.step hs he⟩

/-! ## The bound on a run (40_node_words.md R75) -/

/-- The run at `s` ends within `k` steps, consumes a front part of the bits and emits at most `n` symbols. -/
def State.EndsWithin (k n : Nat) (s : State) : Prop :=
  ∃ j t, j ≤ k ∧ steps j s = .next t ∧ t.Ended ∧ (∃ taken, s.bits = taken ++ t.bits) ∧
    ∃ syms, t.out = s.out ++ syms ∧ syms.length ≤ n

namespace State.EndsWithin

variable {k n : Nat} {s u : State}

theorem of_ended (h : s.Ended) : s.EndsWithin 0 0 :=
  ⟨0, s, le_rfl, rfl, h, ⟨[], rfl⟩, [], (List.append_nil _).symm, le_rfl⟩

theorem mono (h : s.EndsWithin k n) {k' n' : Nat} (hk : k ≤ k') (hn : n ≤ n') : s.EndsWithin k' n' := by
  obtain ⟨j, t, hj, hs, ended, bits, syms, out, hsyms⟩ := h
  exact ⟨j, t, hj.trans hk, hs, ended, bits, syms, out, hsyms.trans hn⟩

/-- A step before the rest of a run, with the bits it takes and the symbols it emits. -/
theorem of_step (h : u.EndsWithin k n) (hs : step s = .next u) {taken : List Bool} {syms : List Nat}
    (bits : s.bits = taken ++ u.bits) (out : u.out = s.out ++ syms) : s.EndsWithin (k + 1) (syms.length + n) := by
  obtain ⟨j, t, hj, hsteps, ended, ⟨taken', bits'⟩, syms', out', hsyms⟩ := h
  refine ⟨j + 1, t, Nat.succ_le_succ hj, (steps_succ hs j).trans hsteps, ended, ⟨taken ++ taken', ?_⟩,
    syms ++ syms', ?_, ?_⟩
  · rw [bits, bits', List.append_assoc]
  · rw [out', out, List.append_assoc]
  · rw [List.length_append]
    omega

end State.EndsWithin

/-- 1 below the root, where a Code is being read and its symbol is still to come, and 0 at the root. -/
def State.belowRoot (s : State) : Nat := if s.np = 0 then 0 else 1

theorem belowRoot_eq_zero {s : State} (h : s.np = 0) : s.belowRoot = 0 := if_pos h

theorem belowRoot_eq_one {s : State} (h : s.np ≠ 0) : s.belowRoot = 1 := if_neg h

/-- Where the root is no LEAF, a run spends on each bit one step at a NODE and at most one at the LEAF it leads to, and
takes one step more to end: a NODE that moves takes a bit, and a LEAF leads from below the root back to it. -/
theorem HoldsLayout.endsWithin {t : Nat → Instr} (root : ∀ x, t 0 ≠ .leaf x) {s : State} (h : HoldsLayout t s)
    (hr : s.state = .run) :
    s.EndsWithin (2 * s.bits.length + s.belowRoot + 1) (s.bits.length + s.belowRoot) := by
  obtain ⟨u, hs, he⟩ := engine_step hr h.inv.npRange h.pending
  have hu := h.step hs he
  have stops (ended : u.Ended) {taken : List Bool} (bits : s.bits = taken ++ u.bits) (out : u.out = s.out) :
      s.EndsWithin (2 * s.bits.length + s.belowRoot + 1) (s.bits.length + s.belowRoot) :=
    ((State.EndsWithin.of_ended ended).of_step hs bits (out.trans (List.append_nil _).symm)).mono (by omega) (by simp)
  generalize hi : nodeAt s s.np = i at he
  cases he with
  | empty | illegal | nodeTruncated => exact stops (.inr rfl) (taken := []) rfl rfl
  | nodeEnd => exact stops (.inl rfl) (taken := []) rfl rfl
  | nodeNull hb => exact stops (.inr rfl) (taken := [_]) hb rfl
  | @leafRoot x h0 => exact absurd (by rw [← h.words, ← h0, hi]) (root x)
  | @leafBelow x h0 =>
    have here := belowRoot_eq_one h0
    have back : (moveTo 0 (symOut x s)).belowRoot = 0 := belowRoot_eq_zero rfl
    have kept : (moveTo 0 (symOut x s)).bits.length = s.bits.length := rfl
    refine ((hu.endsWithin root hr).of_step hs (taken := []) (syms := [x]) rfl rfl).mono (by omega) ?_
    rw [List.length_singleton]
    omega
  | @nodeMoves l r b rest hb hc =>
    have child : (moveTo (childOf b l r) (setStream rest s)).belowRoot = 1 := belowRoot_eq_one hc
    have spent : (moveTo (childOf b l r) (setStream rest s)).bits.length + 1 = s.bits.length := by rw [hb]; rfl
    refine ((hu.endsWithin root hr).of_step hs (taken := [b]) (syms := []) hb (List.append_nil _).symm).mono
      (by omega) ?_
    rw [List.length_nil]
    omega
termination_by 2 * s.bits.length + s.belowRoot
decreasing_by all_goals omega

/-- Settles O43: with a LEAF at the root a run is one step with one symbol; else each symbol costs a bit. -/
theorem runEndsWithinTwiceItsBitsPlusOne : Obligations.RunEndsWithinTwiceItsBitsPlusOne := by
  intro s h hr h0 hp
  suffices s.EndsWithin (2 * s.bits.length + 1) (max s.bits.length 1) from this
  by_cases root : ∃ x, nodeAt s 0 = .leaf x
  · obtain ⟨x, hx⟩ := root
    have hs := singleLeafRunIsOneStep s x hr h0 hx (.inl hp)
    exact ((State.EndsWithin.of_ended (.inl rfl)).of_step hs (taken := []) (syms := [x]) rfl rfl).mono (by omega)
      (le_max_right _ _)
  · have bound := HoldsLayout.endsWithin (not_exists.1 root) ⟨h, hp, rfl⟩ hr
    rw [belowRoot_eq_zero h0] at bound
    exact bound.mono le_rfl (le_max_left _ _)

/-! ## Leaves and their Codes (40_node_words.md R76) -/

/-- Only from a NODE does a walk take a bit. -/
theorem exists_node_of_walkCode {t : Nat → Instr} {p q : Nat} {code : Code} (h : walkCode t p code = some q)
    (hne : code ≠ []) : ∃ l r, t p = .node l r := by
  cases code with
  | nil => exact absurd rfl hne
  | cons b code =>
    obtain ⟨l, r, ht, -⟩ := walkCode_cons.1 h
    exact ⟨l, r, ht⟩

/-- Along a Code the first part leads to the index from which the rest leads on. -/
theorem HasCode.split {t : Nat → Instr} {p : Nat} {front rest : Code} (h : HasCode t p (front ++ rest)) :
    ∃ q, HasCode t q front ∧ walkCode t q rest = some p := by
  rw [HasCode, walkCode_append] at h
  exact Option.bind_eq_some_iff.1 h

/-- Settles O47: the longer Code goes on from the leaf of the shorter one, where no walk goes on. -/
theorem leafCodesArePrefixFree : Obligations.LeafCodesArePrefixFree := by
  rintro t x y a _ ⟨p, hp, hx⟩ ⟨q, hq, hy⟩ ⟨c, rfl⟩
  obtain ⟨p', hp', hc⟩ := hq.split
  obtain rfl : p = p' := Option.some.inj (hp.symm.trans hp')
  obtain rfl : c = [] := of_not_not fun hne => by
    obtain ⟨l, r, node⟩ := exists_node_of_walkCode hc hne
    simp [hx] at node
  cases hc
  exact ⟨(List.append_nil a).symm, Instr.leaf.inj (hx.symm.trans hy)⟩

/-- Where the root is no LEAF, no leaf's Code is empty. -/
theorem LeafCode.ne_nil {t : Nat → Instr} {x : Nat} {code : Code} (h : LeafCode t x code)
    (root : ∀ y, t 0 ≠ .leaf y) : code ≠ [] := by
  rintro rfl
  obtain ⟨p, hp, hx⟩ := h
  cases hp
  exact root x hx

/-- A Code that is not empty leads below the root. -/
theorem HasCode.ne_zero {t : Nat → Instr} {p : Nat} {code : Code} (h : HasCode t p code) (hne : code ≠ []) : p ≠ 0 := by
  rintro rfl
  exact hne h.eq_nil

/-! ## Decoding (40_node_words.md R76) -/

/-- A run follows the bits at the front of its stream to the index they lead to, one step for each. -/
theorem HoldsLayout.follow {t : Nat → Instr} {s : State} {q : Nat} {code : Code} {rest : List Bool}
    (h : HoldsLayout t s) (hr : s.state = .run) (hb : s.bits = code ++ rest) (hw : walkCode t s.np code = some q) :
    steps code.length s = .next (moveTo q (setStream rest s)) ∧ HoldsLayout t (moveTo q (setStream rest s)) := by
  induction code generalizing s with
  | nil =>
    obtain rfl : s.bits = rest := hb
    obtain rfl : s.np = q := Option.some.inj hw
    exact ⟨rfl, h⟩
  | cons b code ih =>
    obtain ⟨l, r, ht, hc, hw⟩ := walkCode_cons.1 hw
    obtain ⟨hs, hu⟩ := h.step_of_effect hr ht (.nodeMoves hb hc)
    rw [List.length_cons, steps_succ hs]
    exact ih hu hr rfl hw

/-- A run at the root, with these bits left and these symbols emitted. -/
structure AtRoot (t : Nat → Instr) (bits : List Bool) (out : List Nat) (s : State) : Prop where
  layout : HoldsLayout t s
  run : s.state = .run
  np : s.np = 0
  bits : s.bits = bits
  out : s.out = out

namespace AtRoot

variable {t : Nat → Instr} {rest : List Bool} {out : List Nat} {s : State}

/-- A Code at the front of the stream leads the run to the index it is a Code of. -/
theorem follow {q : Nat} {code : Code} (h : AtRoot t (code ++ rest) out s) (hq : HasCode t q code) :
    steps code.length s = .next (moveTo q (setStream rest s)) ∧ HoldsLayout t (moveTo q (setStream rest s)) :=
  h.layout.follow h.run h.bits (by rw [h.np]; exact hq)

/-- A leaf's Code at the front of the stream is decoded to the leaf's symbol, and the run is back at the root. -/
theorem decodes_leaf {x : Nat} {code : Code} (h : AtRoot t (code ++ rest) out s) (hx : LeafCode t x code)
    (hne : code ≠ []) : ∃ k u, steps k s = .next u ∧ AtRoot t rest (out ++ [x]) u := by
  obtain ⟨p, hp, hleaf⟩ := hx
  obtain ⟨walked, atLeaf⟩ := h.follow hp
  obtain ⟨emits, back⟩ := atLeaf.step_of_effect h.run hleaf (.leafBelow (hp.ne_zero hne))
  exact ⟨_, _, (steps_add walked 1).trans (steps_succ emits 0), back, h.run, rfl, rfl, congrArg (· ++ [x]) h.out⟩

/-- So is a concatenation of leaves' Codes, to their symbols. -/
theorem decodes_message (root : ∀ y, t 0 ≠ .leaf y) {msg : List (Nat × Code)}
    (h : AtRoot t (msg.flatMap (fun m => m.2) ++ rest) out s) (hmsg : ∀ m ∈ msg, LeafCode t m.1 m.2) :
    ∃ k u, steps k s = .next u ∧ AtRoot t rest (out ++ msg.map (fun m => m.1)) u := by
  induction msg generalizing s out with
  | nil => exact ⟨0, s, rfl, by simpa using h⟩
  | cons m msg ih =>
    obtain ⟨leaf, leaves⟩ := List.forall_mem_cons.1 hmsg
    rw [List.flatMap_cons, List.append_assoc] at h
    obtain ⟨k, u, hk, hu⟩ := h.decodes_leaf leaf (leaf.ne_nil root)
    obtain ⟨j, v, hj, hv⟩ := ih hu leaves
    rw [List.append_assoc] at hv
    exact ⟨k + j, v, (steps_add hk j).trans hj, hv⟩

end AtRoot

/-- Settles O45: the message is decoded, and at the root the NODE finds no bit and ends the run. -/
theorem decodingReproducesTheSymbols : Obligations.DecodingReproducesTheSymbols := by
  rintro s msg h hr h0 hp ⟨l, r, root⟩ hmsg hb
  have start : AtRoot (nodeAt s) (msg.flatMap (fun m => m.2) ++ []) s.out s :=
    ⟨⟨h, hp, rfl⟩, hr, h0, by rw [hb, List.append_nil], rfl⟩
  obtain ⟨k, u, hk, hu⟩ := start.decodes_message (by simp [root]) hmsg
  have word : nodeAt s u.np = .node l r := by rw [hu.np, root]
  obtain ⟨ends, -⟩ := hu.layout.step_of_effect hu.run word (.nodeEnd hu.bits hu.np)
  exact ⟨_, _, (steps_add hk 1).trans (steps_succ ends 0), rfl, hu.out, hu.bits, hu.np⟩

/-- Settles O46: the message is decoded, the run follows the front part to a NODE below the root, where the Code goes on
and the bits do not. -/
theorem truncatedStreamFaultsWithoutASymbol : Obligations.TruncatedStreamFaultsWithoutASymbol := by
  rintro s msg x front rest h hr h0 hp hmsg ⟨p, hx, -⟩ hfront hrest hb
  obtain ⟨q, hq, goesOn⟩ := hx.split
  obtain ⟨l₀, r₀, root⟩ := exists_node_of_walkCode hq hfront
  obtain ⟨l, r, word⟩ := exists_node_of_walkCode goesOn hrest
  have start : AtRoot (nodeAt s) (msg.flatMap (fun m => m.2) ++ front) s.out s := ⟨⟨h, hp, rfl⟩, hr, h0, hb, rfl⟩
  obtain ⟨k, u, hk, hu⟩ := start.decodes_message (by simp [root]) hmsg
  rw [← List.append_nil front] at hu
  obtain ⟨walked, atNode⟩ := hu.follow hq
  obtain ⟨faults, -⟩ := atNode.step_of_effect hu.run word (.nodeTruncated rfl (hq.ne_zero hfront))
  exact ⟨_, _, (steps_add hk _).trans ((steps_add walked 1).trans (steps_succ faults 0)), rfl, rfl, hu.out, rfl, hq⟩

end Sys2Proof.Machine
end

section
/-! PROOFS. Host operations in a run (spec 41_host_commands.md R77, R87): what a host turn leaves of the run, and the
engine's steps with and without host turns between them. -/

namespace Sys2Proof.Machine

/-! ## The same run (41_host_commands.md R87) -/

namespace SameRun

variable {s t u : State}

theorem refl (s : State) : SameRun s s := ⟨rfl, rfl, rfl, rfl, rfl, rfl, rfl, rfl⟩

theorem trans (h : SameRun s t) (h' : SameRun t u) : SameRun s u :=
  ⟨h'.cfg.trans h.cfg, h'.lut.trans h.lut, h'.powerOns.trans h.powerOns, h'.np.trans h.np, h'.state.trans h.state,
    h'.cause.trans h.cause, h'.bits.trans h.bits, h'.out.trans h.out⟩

theorem refuseOp (s : State) : SameRun s (refuseOp s) := ⟨rfl, rfl, rfl, rfl, rfl, rfl, rfl, rfl⟩

theorem hostReturn (v : Word) (s : State) : SameRun s (hostReturn v s) := ⟨rfl, rfl, rfl, rfl, rfl, rfl, rfl, rfl⟩

theorem refuseRead (s : State) : SameRun s (refuseRead s) := (refuseOp s).trans (hostReturn _ _)

theorem setPending (es : List Event) (s : State) : SameRun s (setPending es s) :=
  ⟨rfl, rfl, rfl, rfl, rfl, rfl, rfl, rfl⟩

/-- What is due after it is no part of the run, on either side. -/
theorem setPending_both (h : SameRun s t) (es fs : List Event) :
    SameRun (Machine.setPending es s) (Machine.setPending fs t) :=
  ⟨h.cfg, h.lut, h.powerOns, h.np, h.state, h.cause, h.bits, h.out⟩

end SameRun

/-! ## What a host turn leaves of a run -/

/-- In RUN every effect left to a host turn is outside the run. -/
theorem HostEffect.sameRun {s t : State} (h : HostEffect s t) (hr : s.state = .run) : SameRun s t := by
  cases h with
  | unchanged => exact .refl s
  | begins hs => simp [hr] at hs
  | acknowledges hs => exact absurd hr hs
  | refused => exact .refuseOp s
  | writes hs => exact absurd hr hs
  | returns v => exact .hostReturn v s
  | refusedRead => exact .refuseRead s

/-- A host operation that is due in RUN takes its step and leaves the run as it is. -/
theorem host_step_sameRun {s : State} {r : Raw} {es : List Event} (hs : s.state = .run) (hr : r.isHost = true)
    (hp : s.pending = eventOf r :: es) : ∃ t, step s = .next t ∧ SameRun s t ∧ t.pending = es := by
  obtain ⟨t, e, he⟩ := hostTurn_effect hr (setPending es s)
  have stepped : step s = .next t := by rw [step_cons hp, turn_eventOf hr, e]
  exact ⟨t, stepped, (SameRun.setPending es s).trans (he.sameRun hs), by rw [step_pending stepped, hp, List.tail_cons]⟩

/-! ## The engine's turn in the same run -/

/-- Every node word is of the same shape as itself. -/
theorem EngineEffect.sameWord_self {s t : State} {i : Instr} (h : EngineEffect s i t) : SameWord Eq i i := by
  have child : ∀ n : Nat, SameChild Eq n n := fun n => (em (n = 0)).imp (fun h0 => ⟨h0, h0⟩) fun hn => ⟨hn, hn, rfl⟩
  cases h with
  | empty | illegal => exact trivial
  | leafRoot | leafBelow => exact rfl
  | nodeEnd | nodeTruncated | nodeNull | nodeMoves => exact ⟨child _, child _⟩

/-- One word does the same to one run: the two are runs of one layout that are alike, and a node word keeps the rest. -/
theorem SameRun.effect {s t s' : State} {i : Instr} (h : SameRun s t) (he : EngineEffect s i s') :
    ∃ t', EngineEffect t i t' ∧ SameRun s' t' := by
  have alike : RunAlike Eq s t s t := ⟨h.state.symm, h.cause.symm, h.bits.symm, h.np.symm, [], by simp, by simp⟩
  obtain ⟨t', he', alike'⟩ := alike.effect rfl (fun _ _ e => by rw [e]) he.sameWord_self he
  obtain ⟨lut, powerOns, cfg, -⟩ := he.keeps
  obtain ⟨lut', powerOns', cfg', -⟩ := he'.keeps
  obtain ⟨syms, out, out'⟩ := alike'.out
  refine ⟨t', he', ?_, ?_, ?_, alike'.np.symm, alike'.state.symm, alike'.cause.symm, alike'.bits.symm, ?_⟩
  · rw [cfg', cfg, h.cfg]
  · rw [lut', lut, h.lut]
  · rw [powerOns', powerOns, h.powerOns]
  · rw [out', out, h.out]

theorem engineTurn_of_not_run {s : State} (h : s.state ≠ .run) : engineTurn s = .next s := if_neg h

theorem engineTurn_of_run {s : State} (hr : s.state = .run) (hn : s.np < s.cfg.nodeCount) :
    engineTurn s = exec (nodeAt s s.np) s := by
  rw [engineTurn, if_pos hr, fetch_eq_some hn]
  rfl

/-- A turn of the engine does the same in the same run. -/
theorem SameRun.engineTurn {s t s' : State} (h : SameRun s t) (hs : engineTurn s = .next s') :
    ∃ t', engineTurn t = .next t' ∧ SameRun s' t' := by
  rcases engineTurn_inv hs with ⟨hr, rfl⟩ | ⟨hr, hn, he⟩
  · exact ⟨t, engineTurn_of_not_run (h.state ▸ hr), h⟩
  · obtain ⟨t', he', same⟩ := h.effect he
    have word : nodeAt t t.np = nodeAt s s.np := by rw [nodeAt_congr h.lut h.powerOns h.cfg, h.np]
    have range : t.np < t.cfg.nodeCount := by rwa [h.np, h.cfg]
    exact ⟨t', by rw [engineTurn_of_run (h.state.trans hr) range, word, he'.exec_eq], same⟩

/-- So does a step in which the engine is due. -/
theorem SameRun.engine_step {s t s' : State} (h : SameRun s t) (hs : s.EngineDue) (ht : t.EngineDue)
    (e : step s = .next s') : ∃ t', step t = .next t' ∧ SameRun s' t' := by
  rw [step_of_engineDue hs] at e
  rw [step_of_engineDue ht]
  exact (h.setPending_both _ _).engineTurn e

/-- A node word goes on in RUN or ends the run. -/
theorem EngineEffect.state_cases {s t : State} {i : Instr} (h : EngineEffect s i t) :
    t.state = s.state ∨ t.state = .done ∨ t.state = .fault := by
  cases h with
  | leafBelow | nodeMoves => exact .inl rfl
  | leafRoot | nodeEnd => exact .inr (.inl rfl)
  | empty | illegal | nodeTruncated | nodeNull => exact .inr (.inr rfl)

/-! ## Runs of several steps -/

/-- A step that is followed by others has been taken. -/
theorem steps_succ_inv {k : Nat} {s t : State} (h : steps (k + 1) s = .next t) :
    ∃ u, step s = .next u ∧ steps k u = .next t := by
  rw [steps] at h
  cases hs : step s with
  | next u => exact ⟨u, rfl, by rwa [hs] at h⟩
  | fault r => rw [hs] at h; cases h
  | refused r => rw [hs] at h; cases h

/-- An engine's turn never begins a run. -/
theorem run_of_engine_step {s t : State} (hd : s.EngineDue) (h : step s = .next t) (ht : t.state = .run) :
    s.state = .run := by
  rw [step_of_engineDue hd] at h
  rcases engineTurn_inv h with ⟨-, rfl⟩ | ⟨hr, -, -⟩
  · exact ht
  · exact hr

theorem engineDue_of_forall {s : State} (h : ∀ e ∈ s.pending, e = .engine) : s.EngineDue := by
  cases hp : s.pending with
  | nil => exact .inl hp
  | cons e es => exact .inr ⟨es, by rw [hp, h e (by simp [hp])]⟩

/-- If the engine's steps alone end in RUN, they began in it. -/
theorem run_of_engine_steps {k : Nat} {s u : State} (hp : ∀ e ∈ s.pending, e = .engine) (h : steps k s = .next u)
    (hu : u.state = .run) : s.state = .run := by
  induction k generalizing s with
  | zero =>
    cases h
    exact hu
  | succ k ih =>
    obtain ⟨t, hs, ht⟩ := steps_succ_inv h
    have rest : ∀ e ∈ t.pending, e = .engine := fun e he =>
      hp e (List.mem_of_mem_tail (by rwa [step_pending hs] at he))
    exact run_of_engine_step (engineDue_of_forall hp) hs (ih rest ht)

/-! ## Interleavings -/

/-- The engine's turns of a list of turns. -/
def engineTurns (es : List Event) : List Event := es.filter fun e => e = .engine

@[simp] theorem engineTurns_engine (es : List Event) : engineTurns (.engine :: es) = .engine :: engineTurns es :=
  List.filter_cons_of_pos (by simp)

theorem engineTurns_eventOf {r : Raw} (hr : r.isHost = true) (es : List Event) :
    engineTurns (eventOf r :: es) = engineTurns es :=
  List.filter_cons_of_neg (by cases r <;> simp_all [Raw.isHost, eventOf])

theorem eq_engine_of_mem_engineTurns {es : List Event} {e : Event} (h : e ∈ engineTurns es) : e = .engine := by
  simpa using List.of_mem_filter h

/-- From the same run, the engine's steps alone and any interleaving of them with host operations reach the same run, as
long as it lasts: an engine's turn does the same in both, and a host operation leaves the interleaving's run alone. -/
theorem SameRun.interleave {es : List Event}
    (hes : ∀ e ∈ es, e = .engine ∨ ∃ r : Raw, r.isHost = true ∧ e = eventOf r) {s v u : State} (h : SameRun s v)
    (hs : s.pending = engineTurns es) (hv : v.pending = es) (hu : steps (engineTurns es).length s = .next u)
    (ru : u.state = .run) : ∃ t, steps es.length v = .next t ∧ SameRun u t := by
  induction es generalizing s v with
  | nil =>
    cases hu
    exact ⟨v, rfl, h⟩
  | cons e es ih =>
    obtain ⟨he, rest⟩ := List.forall_mem_cons.1 hes
    rcases he with rfl | ⟨r, hr, rfl⟩
    · rw [engineTurns_engine] at hs hu
      obtain ⟨s', step_s, hu⟩ := steps_succ_inv hu
      obtain ⟨v', step_v, h'⟩ := h.engine_step (.inr ⟨_, hs⟩) (.inr ⟨_, hv⟩) step_s
      rw [List.length_cons, steps_succ step_v]
      exact ih rest h' (by rw [step_pending step_s, hs, List.tail_cons])
        (by rw [step_pending step_v, hv, List.tail_cons]) hu
    · rw [engineTurns_eventOf hr] at hs hu
      have rs : s.state = .run := run_of_engine_steps (hs ▸ fun _ => eq_engine_of_mem_engineTurns) hu ru
      obtain ⟨v', step_v, same, hv'⟩ := host_step_sameRun (h.state.trans rs) hr hv
      rw [List.length_cons, steps_succ step_v]
      exact ih rest (h.trans same) hs hv' hu

/-! ## The statements -/

/-- Settles O42: the two reach the same run with nothing due any more, so the engine's next step is the same in both. -/
theorem interleavedHostOperationsCannotChangeARun : Obligations.InterleavedHostOperationsCannotChangeARun := by
  intro s u es hes _ hu ru
  have start : SameRun (setPending (engineTurns es) s) (setPending es s) := (SameRun.refl s).setPending_both _ _
  obtain ⟨t, ht, same⟩ := start.interleave hes rfl rfl hu ru
  have pending_u : u.pending = [] := (steps_pending hu).trans List.drop_length
  have pending_t : t.pending = [] := (steps_pending ht).trans List.drop_length
  exact ⟨t, ht, same, pending_t, fun _ => same.engine_step (.inl pending_u) (.inl pending_t)⟩

/-- Settles O41: in RUN the one effect of a host turn on the block is HOSTERR. -/
theorem hostOperationLeavesTheRunAlone : Obligations.HostOperationLeavesTheRunAlone :=
  fun _ _ _ hs hr hp => host_step_sameRun hs hr hp

/-- Settles O39: a node word ends a run in DONE or FAULT, a reset in IDLE, and every other turn leaves STATE alone in
RUN. -/
theorem runIsLeftOnlyByTheEngineOrReset : Obligations.RunIsLeftOnlyByTheEngineOrReset := by
  intro s t hr hs hne
  cases step_inv hs with
  | engineRests _ hr' => exact absurd hr hr'
  | engine hd _ _ he => exact .inl ⟨hd, he.state_cases.resolve_left fun e => hne (e.trans hr)⟩
  | host _ _ _ he => exact absurd ((he.hostEffect.sameRun hr).state.trans hr) hne
  | @busDropped es => exact absurd (((dropAccess_effect _ _ (setPending es s)).sameRun hr).state.trans hr) hne
  | rst hp => exact .inr ⟨⟨_, .inl hp⟩, rfl⟩
  | powerOn hp => exact .inr ⟨⟨_, .inr hp⟩, rfl⟩
  | stream => exact absurd hr hne

end Sys2Proof.Machine
end

section
/-! PROOFS. The host commands and the host accesses (spec 41_host_commands.md R78 to R85), one at a time: the next state
each answers, and what it leaves unchanged. -/

namespace Sys2Proof.Machine

/-! ## The commands, branch by branch -/

theorem execStart_of_rest {s : State} (h : s.state = .idle ∨ s.state = .done) : execStart s = .next (beginRun s) :=
  if_pos h

theorem execStart_of_refused {s : State} (h : s.state = .run ∨ s.state = .fault) : execStart s = .next (refuseOp s) :=
  if_neg (by rcases h with h | h <;> simp [h])

theorem execClear_of_not_run {s : State} (h : s.state ≠ .run) : execClear s = .next (acknowledge s) := if_pos h

theorem execClear_of_run {s : State} (h : s.state = .run) : execClear s = .next (refuseOp s) := if_neg (not_not.2 h)

/-- The write of a command's word to CTRL is the command. -/
theorem exec_ctrl_of_decode {v : Word} {i : Instr} (h : decodeCommand v = i) (s : State) :
    exec (.csrwr 0 v) s = exec i s :=
  h ▸ execCsrwr_zero v s

theorem exec_ctrl_start (s : State) : exec (.csrwr 0 0x00000001#32) s = execStart s := exec_ctrl_of_decode rfl s

theorem exec_ctrl_clear (s : State) : exec (.csrwr 0 0x00000002#32) s = execClear s := exec_ctrl_of_decode rfl s

theorem decodeCommand_of_three_le {v : Word} (h : 3 ≤ v.toNat) : decodeCommand v = .reservedCmd v := by
  obtain ⟨-, -, -, reserved⟩ := decodeCommand_eq_iff v
  exact reserved.2 h

theorem exec_ctrl_reserved {v : Word} (h : 3 ≤ v.toNat) (s : State) : exec (.csrwr 0 v) s = .next (refuseOp s) :=
  exec_ctrl_of_decode (decodeCommand_of_three_le h) s

theorem execCsrwr_of_ne_zero {n : Nat} (h : n ≠ 0) (v : Word) (s : State) : execCsrwr n v s = .next (refuseOp s) :=
  if_pos h

/-! ## The accesses, branch by branch -/

theorem execCsrrd_of_csrValue {s : State} {n : Nat} {v : Word} (h : csrValue s n = some v) :
    execCsrrd n s = .next (hostReturn v s) := by
  rw [execCsrrd, h]

theorem execCsrrd_of_four_le {n : Nat} (h : 4 ≤ n) (s : State) : execCsrrd n s = .next (refuseRead s) := by
  obtain ⟨m, rfl⟩ := Nat.exists_eq_add_of_le' h
  rfl

theorem execLutrd_of_lt {s : State} {i : Nat} (h : i < s.cfg.nodeCount) :
    execLutrd i s = .next (hostReturn (memRead s i) s) :=
  if_neg (Nat.not_le.2 h)

theorem execLutrd_of_le {s : State} {i : Nat} (h : s.cfg.nodeCount ≤ i) : execLutrd i s = .next (refuseRead s) :=
  if_pos h

theorem execLutwr_of_accepted {s : State} {i : Nat} (hs : s.state ≠ .run) (hi : i < s.cfg.nodeCount) (w : Word) :
    execLutwr i w s = .next (memWrite i w s) :=
  if_neg (not_or.2 ⟨hs, Nat.not_le.2 hi⟩)

theorem execLutwr_of_refused {s : State} {i : Nat} (h : s.state = .run ∨ s.cfg.nodeCount ≤ i) (w : Word) :
    execLutwr i w s = .next (refuseOp s) :=
  if_pos h

/-! ## The control registers as numbers (10_state.md R28 to R31) -/

/-- Two fields side by side, neither reaching beyond its place. -/
theorem toNat_shiftLeft_or {a b : Word} {n : Nat} (ha : 2 ^ n * a.toNat < 2 ^ 32) (hb : b.toNat < 2 ^ n) :
    (a <<< n ||| b).toNat = 2 ^ n * a.toNat + b.toNat := by
  rw [BitVec.toNat_or, BitVec.toNat_shiftLeft, Nat.shiftLeft_eq, Nat.mul_comm, Nat.mod_eq_of_lt ha,
    ← Nat.two_pow_add_eq_or_of_lt hb]

theorem statusWord_toNat (s : State) :
    s.statusWord.toNat = 0x100 * s.hostErr.toNat + 0x10 * s.cause.code.toNat + s.state.code.toNat := by
  have herr : ((BitVec.ofBool s.hostErr).setWidth 32).toNat = s.hostErr.toNat := by cases s.hostErr <;> rfl
  have hcause : (s.cause.code.setWidth 32).toNat = s.cause.code.toNat :=
    BitVec.toNat_setWidth_of_le (by decide)
  have hstate : (s.state.code.setWidth 32).toNat = s.state.code.toNat := BitVec.toNat_setWidth_of_le (by decide)
  have err_lt := s.hostErr.toNat_lt
  have cause_lt := s.cause.code.isLt
  have state_lt := s.state.code.isLt
  have low : (s.cause.code.setWidth 32 <<< 4 ||| s.state.code.setWidth 32 : Word).toNat =
      2 ^ 4 * s.cause.code.toNat + s.state.code.toNat := by
    rw [toNat_shiftLeft_or (by omega) (by omega), hcause, hstate]
  rw [State.statusWord, BitVec.or_assoc, toNat_shiftLeft_or (by omega) (by omega), low, herr]
  omega

theorem npWord_toNat {s : State} (hc : s.cfg.Ok) (hn : s.np < s.cfg.nodeCount) : s.npWord.toNat = s.np := by
  obtain ⟨-, -, -, h15⟩ := hc
  have count_le : s.cfg.nodeCount ≤ 2 ^ 15 := Nat.pow_le_pow_right (by decide) h15
  exact Nat.mod_eq_of_lt (by omega)

theorem configWord_toNat {c : Config} (hc : c.Ok) : (configWord c).toNat = 0x100 * c.idxW + c.symW := by
  obtain ⟨-, h30, -, h15⟩ := hc
  have idx : (BitVec.ofNat 32 c.idxW).toNat = c.idxW := Nat.mod_eq_of_lt (by omega)
  have sym : (BitVec.ofNat 32 c.symW).toNat = c.symW := Nat.mod_eq_of_lt (by omega)
  rw [configWord, toNat_shiftLeft_or (by omega) (by omega), idx, sym]
  rfl

/-! ## Everything a command can do -/

/-- The command of a word changes nothing, begins a run, acknowledges, or is refused. -/
theorem decodeCommand_next_cases {v : Word} {s t : State} (h : exec (decodeCommand v) s = .next t) :
    t = s ∨ t = beginRun s ∨ t = acknowledge s ∨ t = refuseOp s := by
  rcases decodeCommand_cases v with ⟨-, e⟩ | ⟨-, e⟩ | ⟨-, e⟩ | ⟨-, e⟩ <;> rw [e] at h
  · cases h
    exact .inl rfl
  · rcases execStart_cases s with ⟨-, e⟩ | ⟨-, e⟩ <;> cases e.symm.trans h
    · exact .inr (.inl rfl)
    · exact .inr (.inr (.inr rfl))
  · rcases execClear_cases s with ⟨-, e⟩ | ⟨-, e⟩ <;> cases e.symm.trans h
    · exact .inr (.inr (.inl rfl))
    · exact .inr (.inr (.inr rfl))
  · cases h
    exact .inr (.inr (.inr rfl))

/-- So does any command and any write of a control register. -/
theorem exec_command_cases {i : Instr} {s t : State}
    (hi : i = .nop ∨ i = .start ∨ i = .clear ∨ (∃ v, i = .reservedCmd v) ∨ ∃ n v, i = .csrwr n v)
    (h : exec i s = .next t) : t = s ∨ t = beginRun s ∨ t = acknowledge s ∨ t = refuseOp s := by
  rcases hi with rfl | rfl | rfl | ⟨v, rfl⟩ | ⟨n, v, rfl⟩
  · exact decodeCommand_next_cases (v := 0x00000000#32) h
  · exact decodeCommand_next_cases (v := 0x00000001#32) h
  · exact decodeCommand_next_cases (v := 0x00000002#32) h
  · cases h
    exact .inr (.inr (.inr rfl))
  · by_cases hn : n = 0
    · subst hn
      exact decodeCommand_next_cases ((execCsrwr_zero v s).symm.trans h)
    · cases (execCsrwr_of_ne_zero hn v s).symm.trans h
      exact .inr (.inr (.inr rfl))

/-! ## The statements -/

/-- Settles O22: such a value is the word of a reserved command, whose meaning is the refusal. -/
theorem reservedCommandsAreRefused : Obligations.ReservedCommandsAreRefused := by
  intro s v hv
  have reserved : 3 ≤ v.toNat := (three_le_toNat_iff v).2 hv
  exact ⟨decodeCommand_of_three_le reserved, rfl, exec_ctrl_reserved reserved s⟩

/-- Settles O23: only CTRL takes a write, which is the command its value is the word of. -/
theorem csrwrSelectsTheCommand : Obligations.CsrwrSelectsTheCommand := by
  intro s n v
  obtain ⟨t, e, -⟩ := decodeCommand_effect v s
  have command : exec (.csrwr 0 v) s = exec (decodeCommand v) s := execCsrwr_zero v s
  exact ⟨fun hn => execCsrwr_of_ne_zero hn v s, fun hk => exec_ctrl_reserved ((three_le_toNat_iff v).2 (.inr hk)) s,
    exec_ctrl_of_decode rfl s, exec_ctrl_start s, exec_ctrl_clear s, exec_ctrl_reserved (by decide) s, command, t,
    command.trans e⟩

/-- Settles O24: each register's value, and each of the four as a number. -/
theorem csrrdReturnsTheRegister : Obligations.CsrrdReturnsTheRegister := by
  intro s
  have read {n : Nat} {v : Word} (h : csrValue s n = some v) : exec (.csrrd n) s = .next (hostReturn v s) :=
    execCsrrd_of_csrValue h
  refine ⟨read rfl, ⟨_, read rfl, ?_⟩, ⟨_, read rfl, npWord_toNat⟩, ⟨_, read rfl, configWord_toNat⟩,
    fun n hn => execCsrrd_of_four_le hn s⟩
  rw [statusWord_toNat]
  congr 2
  · cases s.hostErr <;> rfl
  · cases s.cause <;> rfl
  · cases s.state <;> rfl

/-- Settles O26: the write replaces the one entry, whatever the word. -/
theorem lutwrStoresTheWord : Obligations.LutwrStoresTheWord := fun s i w =>
  ⟨fun hs hi => ⟨memWrite i w s, execLutwr_of_accepted hs hi w, rfl, memRead_memWrite_self s i w,
      fun _ ha => memRead_memWrite_of_ne s w ha⟩,
    fun h => execLutwr_of_refused h w⟩

/-- Settles O29: none of the four things a command can do reaches the LUT, the streams or the model's own fields. -/
theorem commandsFrame : Obligations.CommandsFrame := by
  intro i s t hi h
  have frame : t.lut = s.lut ∧ t.bits = s.bits ∧ t.out = s.out ∧ t.cfg = s.cfg ∧ t.powerOns = s.powerOns ∧
      t.returned = s.returned ∧ t.pending = s.pending := by
    rcases exec_command_cases hi h with rfl | rfl | rfl | rfl <;> exact ⟨rfl, rfl, rfl, rfl, rfl, rfl, rfl⟩
  obtain ⟨lut, bits, out, cfg, powerOns, returned, pending⟩ := frame
  refine ⟨memRead_congr lut powerOns, lut, bits, out, cfg, powerOns, returned, pending, ?_, ?_, ?_⟩
  · rintro rfl
    cases h
    rfl
  · rintro rfl
    rcases execStart_cases s with ⟨-, e⟩ | ⟨-, e⟩ <;> cases e.symm.trans h
    · exact ⟨rfl, .inl rfl⟩
    · exact ⟨rfl, .inr rfl⟩
  · rintro (⟨v, rfl⟩ | ⟨n, v, rfl, hn⟩)
    · cases h
      exact ⟨rfl, rfl, rfl⟩
    · cases (execCsrwr_of_ne_zero hn v s).symm.trans h
      exact ⟨rfl, rfl, rfl⟩

/-- Settles O30: a read that is accepted returns its value and does nothing else, one that is refused returns 0 and sets
HOSTERR. -/
theorem hostReadsFrame : Obligations.HostReadsFrame := by
  intro i s t hi h
  rcases hi with ⟨n, rfl⟩ | ⟨n, rfl⟩
  · rcases execCsrrd_cases n s with ⟨v, hn, -, e⟩ | ⟨hn, e⟩ <;> cases e.symm.trans h
    · exact ⟨fun _ => rfl, .hostReturn v s, rfl, by simp [hn], by simp, v, rfl⟩
    · exact ⟨fun _ => rfl, .refuseRead s, rfl, by simp [hn], by simp, _, rfl⟩
  · rcases execLutrd_cases n s with ⟨hn, e⟩ | ⟨hn, e⟩ <;> cases e.symm.trans h
    · exact ⟨fun _ => rfl, .hostReturn _ s, rfl, by simp, by simp [hn], _, rfl⟩
    · exact ⟨fun _ => rfl, .refuseRead s, rfl, by simp, by simp [hn], _, rfl⟩

/-- Settles O19: NOP's meaning is the state itself, and 0 is NOP's word. -/
theorem nopChangesNothing : Obligations.NopChangesNothing := fun s => ⟨rfl, exec_ctrl_of_decode rfl s⟩

/-- Settles O20: the two spellings have one meaning, which tests STATE. -/
theorem startBeginsARunAtTheRoot : Obligations.StartBeginsARunAtTheRoot := by
  intro s i hi
  have start : exec i s = execStart s := by
    rcases hi with rfl | rfl
    · rfl
    · exact exec_ctrl_start s
  rw [start]
  exact ⟨execStart_of_rest, execStart_of_refused⟩

/-- Settles O21: the two spellings have one meaning, which tests STATE. -/
theorem clearAcknowledgesOutsideRun : Obligations.ClearAcknowledgesOutsideRun := by
  intro s i hi
  have clear : exec i s = execClear s := by
    rcases hi with rfl | rfl
    · rfl
    · exact exec_ctrl_clear s
  rw [clear]
  exact ⟨execClear_of_not_run, execClear_of_run⟩

/-- Settles O25: the index is in range or not. -/
theorem lutrdReturnsTheWord : Obligations.LutrdReturnsTheWord := fun _ _ => ⟨execLutrd_of_lt, execLutrd_of_le⟩

end Sys2Proof.Machine
end

section
/-! PROOFS. HOSTERR over a step (spec 41_host_commands.md R86): which turns set it and which clear it. -/

namespace Sys2Proof.Machine

/-! ## A flag that is set and cleared -/

/-- A flag that goes from `a` to `b` is set from 0 exactly on `sets` and cleared from 1 exactly on `clears`. -/
def FlagMoves (a b : Bool) (sets clears : Prop) : Prop :=
  (a = false → (b = true ↔ sets)) ∧ (a = true → (b = false ↔ clears))

namespace FlagMoves

variable {a b : Bool} {sets clears sets' clears' : Prop}

theorem kept (hs : ¬sets) (hc : ¬clears) : FlagMoves a a sets clears := by
  cases a <;> simp [FlagMoves, hs, hc]

theorem set (hs : sets) (hc : ¬clears) : FlagMoves a true sets clears := by
  simp [FlagMoves, hs, hc]

theorem cleared (hs : ¬sets) (hc : clears) : FlagMoves a false sets clears := by
  simp [FlagMoves, hs, hc]

theorem congr (h : FlagMoves a b sets clears) (hs : sets' ↔ sets) (hc : clears' ↔ clears) :
    FlagMoves a b sets' clears' :=
  ⟨fun ha => (h.1 ha).trans hs.symm, fun ha => (h.2 ha).trans hc.symm⟩

end FlagMoves

/-! ## Which instructions set and clear HOSTERR -/

/-- The host instruction is refused (41_host_commands.md R86, all but its last event, which is no instruction's). -/
def State.Refuses (s : State) : Instr → Prop
  | .start => s.state = .run ∨ s.state = .fault
  | .clear => s.state = .run
  | .reservedCmd v => 3 ≤ v.toNat
  | .csrwr n v =>
    n ≠ 0 ∨ 3 ≤ v.toNat ∨ v = 0x00000001#32 ∧ (s.state = .run ∨ s.state = .fault) ∨ v = 0x00000002#32 ∧ s.state = .run
  | .csrrd n => 4 ≤ n
  | .lutwr i _ => s.state = .run ∨ s.cfg.nodeCount ≤ i
  | .lutrd i => s.cfg.nodeCount ≤ i
  | .nop | .empty | .leaf _ | .node _ _ | .illegal _ => False

/-- The host instruction is a CLEAR that is accepted. -/
def State.Acknowledges (s : State) (i : Instr) : Prop :=
  (i = .clear ∨ i = .csrwr 0 0x00000002#32) ∧ s.state ≠ .run

theorem execStart_hostErr {s t : State} {sets clears : Prop} (h : execStart s = .next t)
    (hs : sets ↔ s.state = .run ∨ s.state = .fault) (hc : ¬clears) : FlagMoves s.hostErr t.hostErr sets clears := by
  rcases execStart_cases s with ⟨rest, e⟩ | ⟨busy, e⟩ <;> cases e.symm.trans h
  · exact .kept (by rw [hs]; rcases rest with e | e <;> simp [e]) hc
  · exact .set (hs.2 busy) hc

theorem execClear_hostErr {s t : State} {sets clears : Prop} (h : execClear s = .next t)
    (hs : sets ↔ s.state = .run) (hc : clears ↔ s.state ≠ .run) : FlagMoves s.hostErr t.hostErr sets clears := by
  rcases execClear_cases s with ⟨rest, e⟩ | ⟨run, e⟩ <;> cases e.symm.trans h
  · exact .cleared (mt hs.1 rest) (hc.2 rest)
  · exact .set (hs.2 run) fun c => hc.1 c run

/-- A host instruction sets HOSTERR exactly when it is refused, and clears it exactly as an accepted CLEAR. -/
theorem DueEffect.hostErr {s t : State} {i : Instr} (h : DueEffect s t i) :
    FlagMoves s.hostErr t.hostErr (s.Refuses i) (s.Acknowledges i) := by
  cases h with
  | nop h | ctrlNop h => subst h; exact .kept (by simp [State.Refuses]) (by simp [State.Acknowledges])
  | start h | ctrlStart h => exact execStart_hostErr h (by simp [State.Refuses]) (by simp [State.Acknowledges])
  | clear h | ctrlClear h => exact execClear_hostErr h (by simp [State.Refuses]) (by simp [State.Acknowledges])
  | reservedCmd hv h => subst h; exact .set hv (by simp [State.Acknowledges])
  | @ctrlReserved v hv h =>
    subst h
    exact .set (.inr (.inl hv)) (by rintro ⟨e | e, -⟩ <;> cases e; exact absurd hv (by decide))
  | notCtrl hn h => subst h; exact .set (.inl hn) (by simp [State.Acknowledges, hn])
  | csrrd hn h => subst h; exact .kept (Nat.not_le.2 hn) (by simp [State.Acknowledges])
  | csrrdRefused hn h => subst h; exact .set hn (by simp [State.Acknowledges])
  | lutrd hi h => subst h; exact .kept (Nat.not_le.2 hi) (by simp [State.Acknowledges])
  | lutrdRefused hi h => subst h; exact .set hi (by simp [State.Acknowledges])
  | lutwr hr hi h => subst h; exact .kept (not_or.2 ⟨hr, Nat.not_le.2 hi⟩) (by simp [State.Acknowledges])
  | lutwrRefused hi h => subst h; exact .set hi (by simp [State.Acknowledges])

/-! ## What is due when HOSTERR is set and when it is cleared -/

/-- The turn is a host operation's. -/
def Event.isHost : Event → Bool
  | .command _ | .access _ | .bus _ => true
  | .engine | .rst | .powerOn | .stream _ => false

theorem isHost_eventOf {r : Raw} (hr : r.isHost = true) : (eventOf r).isHost = true := by
  cases r with
  | node => cases hr
  | command | access | bus => rfl

/-- A host operation is due, whatever it decodes to. -/
def State.HostTurnDue (s : State) : Prop := ∃ e es, s.pending = e :: es ∧ e.isHost = true

/-- A bus access is due that the default binding refuses (20_memory.md R45). -/
def State.RefusedBusDue (s : State) : Prop :=
  ∃ b es, s.pending = .bus b :: es ∧ s.cfg.hostBinding = .defaultBus ∧
    (b.width ≠ 32 ∨ b.offset % 4 ≠ 0 ∨ 0x40000 ≤ b.offset)

/-- A host operation is due that is refused, as an instruction or as no instruction at all. -/
def State.RefusalDue (s : State) : Prop := (∃ i, s.HostDue i ∧ s.Refuses i) ∨ s.RefusedBusDue

/-- An accepted CLEAR or a reset is due. -/
def State.ClearingDue (s : State) : Prop := (∃ i, s.HostDue i ∧ s.Acknowledges i) ∨ s.ResetDue

theorem State.HostDue.hostTurnDue {s : State} {i : Instr} (h : s.HostDue i) : s.HostTurnDue := by
  obtain ⟨r, es, hr, hp, -⟩ := h
  exact ⟨eventOf r, es, hp, isHost_eventOf hr⟩

theorem State.RefusalDue.hostTurnDue {s : State} (h : s.RefusalDue) : s.HostTurnDue := by
  rcases h with ⟨i, due, -⟩ | ⟨b, es, hp, -⟩
  · exact due.hostTurnDue
  · exact ⟨.bus b, es, hp, rfl⟩

theorem State.HostTurnDue.not_resetDue {s : State} (h : s.HostTurnDue) : ¬s.ResetDue := by
  obtain ⟨e, es, hp, he⟩ := h
  rintro ⟨es', hp' | hp'⟩ <;> cases hp.symm.trans hp' <;> cases he

theorem not_hostTurnDue {s : State} {e : Event} {es : List Event} (hp : s.pending = e :: es)
    (he : e.isHost = false) : ¬s.HostTurnDue := by
  rintro ⟨e', es', hp', he'⟩
  cases hp.symm.trans hp'
  cases he.symm.trans he'

theorem not_hostTurnDue_of_engineDue {s : State} (h : s.EngineDue) : ¬s.HostTurnDue := by
  rintro ⟨e, es, hp, he⟩
  exact not_engineDue hp (by rintro rfl; cases he) h

theorem not_resetDue_of_engineDue {s : State} (h : s.EngineDue) : ¬s.ResetDue := by
  rintro ⟨es, hp | hp⟩ <;> exact not_engineDue hp nofun h

/-- An access that the default binding refuses decodes to no instruction. -/
theorem not_refusedBusDue_of_decode {s : State} {r : Raw} {es : List Event} {i : Instr}
    (hp : s.pending = eventOf r :: es) (hd : decode s.cfg r = .ok i) : ¬s.RefusedBusDue := by
  rintro ⟨b, es', hp', hc, hb⟩
  obtain ⟨e, he, -⟩ := decode_bus_refused hc hb
  rw [hp] at hp'
  cases r <;> cases hp'
  cases he.symm.trans hd

/-- A bus access that decodes to no instruction is no host instruction's. -/
theorem not_hostDue_of_bindBus_error {s : State} {b : BusAccess} {es : List Event} {e : DecodeError}
    (hp : s.pending = .bus b :: es) (hb : bindBus s.cfg b = .error e) (i : Instr) : ¬s.HostDue i := by
  rintro ⟨r, es', -, hp', hd⟩
  rw [hp] at hp'
  cases r <;> cases hp'
  simp [decode, hb] at hd

/-! ## HOSTERR over a step -/

/-- What keeps HOSTERR where neither a host operation nor a reset is due. -/
theorem hostErr_kept {s t : State} (kept : t.hostErr = s.hostErr) (noHost : ¬s.HostTurnDue) (noReset : ¬s.ResetDue) :
    FlagMoves s.hostErr t.hostErr s.RefusalDue s.ClearingDue := by
  rw [kept]
  refine .kept (mt State.RefusalDue.hostTurnDue noHost) ?_
  rintro (⟨i, due, -⟩ | reset)
  · exact noHost due.hostTurnDue
  · exact noReset reset

/-- A reset clears HOSTERR. -/
theorem hostErr_cleared {s t : State} (cleared : t.hostErr = false) (reset : s.ResetDue) :
    FlagMoves s.hostErr t.hostErr s.RefusalDue s.ClearingDue := by
  rw [cleared]
  exact .cleared (fun refusal => refusal.hostTurnDue.not_resetDue reset) (.inr reset)

/-- A host operation that decodes moves HOSTERR as its instruction does. -/
theorem hostErr_of_dueEffect {s t : State} {r : Raw} {es : List Event} {i : Instr} (hr : r.isHost = true)
    (hp : s.pending = eventOf r :: es) (hd : decode s.cfg r = .ok i) (he : DueEffect (setPending es s) t i) :
    FlagMoves s.hostErr t.hostErr s.RefusalDue s.ClearingDue := by
  have due : s.HostDue i := ⟨r, es, hr, hp, hd⟩
  have only {P : Instr → Prop} : (∃ j, s.HostDue j ∧ P j) ↔ P i :=
    ⟨fun ⟨_, hj, h⟩ => hostDue_unique hr hp hd hj ▸ h, fun h => ⟨i, due, h⟩⟩
  exact he.hostErr.congr ((or_iff_left (not_refusedBusDue_of_decode hp hd)).trans only)
    ((or_iff_left due.hostTurnDue.not_resetDue).trans only)

/-- A bus access that is no abstract access sets HOSTERR on the default binding, and on no other. -/
theorem hostErr_of_busDropped {s : State} {b : BusAccess} {es : List Event} {e : DecodeError}
    (hp : s.pending = .bus b :: es) (hb : bindBus s.cfg b = .error e) :
    FlagMoves s.hostErr (dropAccess e (Raw.bus b).isRead (setPending es s)).hostErr s.RefusalDue s.ClearingDue := by
  have noInstr := not_hostDue_of_bindBus_error hp hb
  have noClearing : ¬s.ClearingDue := by
    rintro (⟨i, due, -⟩ | reset)
    · exact noInstr i due
    · exact State.HostTurnDue.not_resetDue ⟨.bus b, es, hp, rfl⟩ reset
  rcases bindBus_error_cases hb with ⟨hc, refused, drop⟩ | ⟨n, hc, -, drop⟩ <;> rw [drop]
  · have err : (refuseAccess (Raw.bus b).isRead (setPending es s)).hostErr = true := by
      cases (Raw.bus b).isRead <;> rfl
    rw [err]
    exact .set (.inr ⟨b, es, hp, hc, refused⟩) noClearing
  · refine .kept ?_ noClearing
    rintro (⟨i, due, -⟩ | ⟨b', es', -, hc', -⟩)
    · exact noInstr i due
    · cases hc.symm.trans hc'

/-- A step moves HOSTERR by what is due: a refusal sets it, an accepted CLEAR or a reset clears it, nothing else
reaches it. -/
theorem step_hostErr {s t : State} (h : step s = .next t) :
    FlagMoves s.hostErr t.hostErr s.RefusalDue s.ClearingDue := by
  cases step_inv h with
  | engineRests hd => exact hostErr_kept rfl (not_hostTurnDue_of_engineDue hd) (not_resetDue_of_engineDue hd)
  | engine hd _ _ he =>
    obtain ⟨-, -, -, kept, -⟩ := he.keeps
    exact hostErr_kept kept (not_hostTurnDue_of_engineDue hd) (not_resetDue_of_engineDue hd)
  | host hr hp hd he => exact hostErr_of_dueEffect hr hp hd he
  | busDropped hp hb => exact hostErr_of_busDropped hp hb
  | rst hp => exact hostErr_cleared rfl ⟨_, .inl hp⟩
  | powerOn hp => exact hostErr_cleared rfl ⟨_, .inr hp⟩
  | stream hp =>
    refine hostErr_kept rfl (not_hostTurnDue hp rfl) ?_
    rintro ⟨es', hp' | hp'⟩ <;> cases hp.symm.trans hp'

/-- Settles O40: the events listed are the refusals and the clearings, instruction by instruction. -/
theorem hostErrIsSetAndClearedByExactlyThese : Obligations.HostErrIsSetAndClearedByExactlyThese := by
  intro s t hs
  have refusal {i : Instr} (due : s.HostDue i) (h : s.Refuses i) : s.RefusalDue := .inl ⟨i, due, h⟩
  refine (step_hostErr hs).congr ⟨?_, ?_⟩ ⟨?_, ?_⟩
  · rintro (⟨n, v, due, hn⟩ | ⟨v, due | due, hv⟩ | ⟨due | due, hs⟩ | ⟨due | due, hr⟩ | ⟨n, due, hn⟩ | ⟨i, w, due, hr⟩ |
      ⟨i, w, due, hi⟩ | ⟨i, due, hi⟩ | bus)
    · exact refusal due (.inl hn)
    · exact refusal due (.inr (.inl hv))
    · exact refusal due hv
    · exact refusal due hs
    · exact refusal due (.inr (.inr (.inl ⟨rfl, hs⟩)))
    · exact refusal due hr
    · exact refusal due (.inr (.inr (.inr ⟨rfl, hr⟩)))
    · exact refusal due hn
    · exact refusal due (.inl hr)
    · exact refusal due (.inr hi)
    · exact refusal due hi
    · exact .inr bus
  · rintro (⟨i, due, refused⟩ | bus)
    · cases i with
      | csrwr n v =>
        by_cases hn : n = 0
        · subst hn
          rcases refused with hn | hv | ⟨rfl, hs⟩ | ⟨rfl, hr⟩
          · exact absurd rfl hn
          · exact .inr (.inl ⟨v, .inl due, hv⟩)
          · exact .inr (.inr (.inl ⟨.inr due, hs⟩))
          · exact .inr (.inr (.inr (.inl ⟨.inr due, hr⟩)))
        · exact .inl ⟨n, v, due, hn⟩
      | reservedCmd v => exact .inr (.inl ⟨v, .inr due, refused⟩)
      | start => exact .inr (.inr (.inl ⟨.inl due, refused⟩))
      | clear => exact .inr (.inr (.inr (.inl ⟨.inl due, refused⟩)))
      | csrrd n => exact .inr (.inr (.inr (.inr (.inl ⟨n, due, refused⟩))))
      | lutwr i w =>
        rcases refused with hr | hi
        · exact .inr (.inr (.inr (.inr (.inr (.inl ⟨i, w, due, hr⟩)))))
        · exact .inr (.inr (.inr (.inr (.inr (.inr (.inl ⟨i, w, due, hi⟩))))))
      | lutrd i => exact .inr (.inr (.inr (.inr (.inr (.inr (.inr (.inl ⟨i, due, refused⟩)))))))
      | nop | empty | leaf | node | illegal => exact refused.elim
    · exact .inr (.inr (.inr (.inr (.inr (.inr (.inr (.inr bus)))))))
  · rintro (⟨due | due, hs⟩ | reset)
    · exact .inl ⟨_, due, .inl rfl, hs⟩
    · exact .inl ⟨_, due, .inr rfl, hs⟩
    · exact .inr reset
  · rintro (⟨i, due, rfl | rfl, hs⟩ | reset)
    · exact .inl ⟨.inl due, hs⟩
    · exact .inl ⟨.inr due, hs⟩
    · exact .inr reset

end Sys2Proof.Machine
end

section
/-! PROOFS. START with a LEAF at the root (spec 41_host_commands.md R90). -/

namespace Sys2Proof.Machine

/-- A START in IDLE or DONE and the engine's step after it: with a LEAF at the root they give its symbol once and end
in DONE. -/
theorem start_then_leaf {s : State} {x : Nat} {es : List Event} (hs : s.state = .idle ∨ s.state = .done)
    (hx : nodeAt s 0 = .leaf x) (hp : s.pending = .command 0x00000001#32 :: .engine :: es) :
    steps 2 s = .next { s with pending := es, np := 0, out := s.out ++ [x], state := .done } := by
  have started : step s = .next (beginRun (setPending (.engine :: es) s)) :=
    (step_of_host_decode_ok (r := .command 0x00000001#32) rfl hp rfl).trans (execStart_of_rest hs)
  have emitted := singleLeafRunIsOneStep (beginRun (setPending (.engine :: es) s)) x rfl rfl hx (.inr ⟨es, rfl⟩)
  rw [steps_succ started, steps_succ emitted]
  rfl

/-- Settles O50: by induction on the STARTs, each of which finds the LEAF at the root again and leaves DONE. -/
theorem repeatedStartsRepeatTheSymbol : Obligations.RepeatedStartsRepeatTheSymbol := by
  intro n
  induction n with
  | zero => exact fun s _ _ _ _ => ⟨s, rfl, by simp, rfl, rfl, by simp⟩
  | succ n ih =>
    intro s x hs hx hp
    have once := start_then_leaf hs hx hp
    obtain ⟨t, ht, out, bits, hostErr, done⟩ :=
      ih { s with pending := _, np := 0, out := s.out ++ [x], state := .done } x (.inr rfl) hx rfl
    refine ⟨t, ?_, ?_, bits, hostErr, fun _ => ?_⟩
    · rw [Nat.mul_succ, Nat.add_comm]
      exact (steps_add once _).trans ht
    · rw [out, List.append_assoc, List.replicate_succ]
      rfl
    · rcases Nat.eq_zero_or_pos n with rfl | hn
      · cases ht
        rfl
      · exact done hn

end Sys2Proof.Machine
end

section
/-! PROOFS. `Insert` and the text (spec 45_toolchain.md R92 to R100): one pair on any image, many pairs in order, and the
text of pairs read line by line. -/

namespace Sys2Proof.Toolchain

open Sys2Proof.Machine

/-- Pairs as the Deserializer takes them, each symbol an integer (45_toolchain.md R97). -/
abbrev intPairs (pairs : List (Nat × Code)) : List (Int × Code) := pairs.map fun sc => ((sc.1 : Int), sc.2)

/-- `Insert` of a symbol in range is its walk and then its leaf (45_toolchain.md R98, R100). -/
theorem insertPair_of_inRange {c : Config} {img : Image} {s : Int} {code : Code} (h0 : 0 ≤ s)
    (hs : s < (2 : Int) ^ c.symW) :
    insertPair c img s code = (insertWalk c img 0 code).bind fun x => placeLeaf c s.toNat x.1 x.2 := by
  rw [insertPair, if_neg (by omega)]
  cases insertWalk c img 0 code <;> rfl

/-- `Insert` of a Code whose index is there goes to its end without a change (45_toolchain.md R98). -/
theorem insertWalk_of_hasCode {c : Config} {img : Image} {p : Nat} {code : Code}
    (h : HasCode (img.nodeAt c) p code) : insertWalk c img 0 code = .ok (img, p) := by
  simpa [insertWalk] using insertWalk_of_walkCode h (more := [])

/-- Settles O56: the range is the first thing `Insert` checks. -/
theorem symbolOutOfRangeIsRejected : Obligations.SymbolOutOfRangeIsRejected := by
  intro c img s code h
  exact ⟨if_pos h, if_pos (.inl (by decide))⟩

/-- Settles O55: the walk stops at the leaf on its way, or it comes to its end and finds no placeholder there. -/
theorem conflictingCodesAreRejected : Obligations.ConflictingCodesAreRejected := by
  intro c img s code p h0 hs
  rw [insertPair_of_inRange h0 hs]
  refine ⟨?_, ?_, ?_⟩
  · rintro front b rest x rfl hfront leaf
    rw [insertWalk_of_walkCode hfront]
    simp [insertWalk, insertStep, leaf, childFields, Except.bind]
  · rintro hcode ⟨l, r, node⟩
    simp [insertWalk_of_hasCode hcode, placeLeaf, node, Except.bind]
  · rintro hcode ⟨x, leaf⟩
    simp [insertWalk_of_hasCode hcode, placeLeaf, leaf, Except.bind]

/-- The two lines of a pair are read as they were written, and the text goes on behind them (45_toolchain.md R93). -/
theorem lines_writePairs_cons (s : Nat) (code : Code) (pairs : List (Nat × Code)) :
    lines (writePairs ((s, code) :: pairs)) = decimal s :: codeText code :: lines (writePairs pairs) := by
  rw [← lines_line (codeText_plain code), ← lines_line (decimal_plain s)]
  simp [writePairs]

/-- On any image the reader inserts the pairs whose text it reads (45_toolchain.md R92, R96). -/
theorem insertLines_writePairs (c : Config) (img : Image) (pairs : List (Nat × Code)) :
    insertLines c img (lines (writePairs pairs)) = insertAll c img (intPairs pairs) := by
  induction pairs generalizing img with
  | nil => rfl
  | cons pair pairs ih =>
    obtain ⟨s, code⟩ := pair
    simp only [lines_writePairs_cons, insertLines, readSymbol_decimal, readCode_codeText, List.map_cons, insertAll]
    cases insertPair c img s code with
    | error e => rfl
    | ok img' => exact ih img'

/-- Settles O58: the reader inserts the pairs one by one, on the image the Deserializer begins with. -/
theorem textOfPairsReadsBack : Obligations.TextOfPairsReadsBack := fun c pairs =>
  insertLines_writePairs c Image.initial pairs

end Sys2Proof.Toolchain
end

section
/-! PROOFS. The Tree Builder (spec 45_toolchain.md R106): the symbols of the tree it makes. -/

namespace Sys2Proof.Toolchain

/-- The symbols of a tree's leaves, left before right. -/
abbrev CodeTree.symbols (t : CodeTree) : List Nat := t.pairs.map fun sc => sc.1

/-- The symbols of a collection's trees. -/
abbrev symbolsOf (ws : List Weighted) : List Nat := ws.flatMap fun w => w.tree.symbols

@[simp] theorem CodeTree.symbols_leaf (s : Nat) : (CodeTree.leaf s).symbols = [s] := rfl

@[simp] theorem CodeTree.symbols_node (l r : CodeTree) : (CodeTree.node l r).symbols = l.symbols ++ r.symbols := by
  simp only [CodeTree.symbols, CodeTree.pairs, CodeTree.pairsFrom, List.map_append]
  rw [l.pairsFrom_symbols _ [], r.pairsFrom_symbols _ []]

/-- The Builder's loop keeps the symbols of its collection: each round takes out two trees and puts back the tree of
both (45_toolchain.md R106). -/
theorem combineAll_symbols {fuel seq : Nat} {a : Weighted} {rest : List Weighted} (h : rest.length ≤ fuel) :
    (combineAll fuel seq a rest).symbols.Perm (symbolsOf (a :: rest)) := by
  induction fuel generalizing seq a rest with
  | zero =>
    obtain rfl := List.length_eq_zero_iff.1 (Nat.le_zero.1 h)
    simp [combineAll, symbolsOf]
  | succ fuel ih =>
    rw [combineAll]
    have first := extractMin_perm a rest
    generalize extractMin a rest = e at first ⊢
    obtain ⟨x, _ | ⟨b, rest'⟩⟩ := e
    · simpa [symbolsOf] using first.flatMap_right fun w => w.tree.symbols
    · have second := extractMin_perm b rest'
      have shorter : (extractMin b rest').2.length ≤ fuel := by
        have firstLength := first.length_eq
        have secondLength := second.length_eq
        simp only [List.length_cons] at firstLength secondLength
        omega
      refine (ih shorter).trans ?_
      simpa [symbolsOf] using ((second.cons x).trans first).flatMap_right fun w => w.tree.symbols

/-- The Builder begins with one leaf for each entry (45_toolchain.md R107). -/
theorem symbolsOf_initialLeaves (seq : Nat) (fs : FreqTable) :
    symbolsOf (initialLeaves seq fs) = fs.map fun e => e.1 := by
  induction fs generalizing seq with
  | nil => rfl
  | cons e fs ih => simpa [symbolsOf, initialLeaves] using ih (seq + 1)

theorem initialLeaves_eq_nil {seq : Nat} {fs : FreqTable} : initialLeaves seq fs = [] ↔ fs = [] := by
  cases fs <;> simp [initialLeaves]

/-- No entry takes part exactly when no count is positive (45_toolchain.md R106). -/
theorem alphabet_eq_nil {fs : FreqTable} : alphabet fs = [] ↔ ∀ e ∈ fs, e.2 = 0 := by
  rw [← List.length_eq_zero_iff, (alphabet_perm fs).length_eq, List.length_eq_zero_iff, List.filter_eq_nil_iff]
  simp

/-- The two things `build` can answer (45_toolchain.md R106): an error without an entry that takes part, else a tree with
the symbols of those that do. -/
theorem build_cases (fs : FreqTable) :
    (alphabet fs = [] ∧ build fs = .error .emptyAlphabet) ∨
      (alphabet fs ≠ [] ∧ ∃ t, build fs = .ok t ∧ t.symbols.Perm ((alphabet fs).map fun e => e.1)) := by
  rw [build]
  cases h : initialLeaves 0 (alphabet fs) with
  | nil => exact .inl ⟨initialLeaves_eq_nil.1 h, rfl⟩
  | cons a rest =>
    refine .inr ⟨fun h0 => by simp [h0, initialLeaves] at h, _, rfl, ?_⟩
    rw [← symbolsOf_initialLeaves 0, h]
    exact combineAll_symbols (Nat.le_succ _)

/-- Settles O59: the Builder fails exactly on an empty alphabet; else its tree has the symbols of the alphabet, which are
those of the entries with a positive count. -/
theorem builderHoldsExactlyTheAlphabet : Obligations.BuilderHoldsExactlyTheAlphabet := by
  intro fs
  rcases build_cases fs with ⟨noEntry, fails⟩ | ⟨anEntry, t, ht, symbols⟩
  · rw [alphabet_eq_nil] at noEntry
    exact ⟨iff_of_true fails noEntry, fun ⟨e, he, hpos⟩ => absurd (noEntry e he) hpos⟩
  · rw [Ne, alphabet_eq_nil] at anEntry
    exact ⟨iff_of_false (by simp [ht]) anEntry, fun _ => ⟨t, ht, symbols.trans ((alphabet_perm fs).map _)⟩⟩

end Sys2Proof.Toolchain
end

section
/-! PROOFS. The canonical image of a tree (spec 45_toolchain.md R98, R104, R109): where `Insert` puts a tree's nodes, and
what the Serializer reads from them. -/

namespace Sys2Proof.Toolchain

open Sys2Proof.Machine

/-! ## What Insert writes (45_toolchain.md R98): a placeholder with the link to it, and a leaf -/

/-- The image with a new placeholder at the next unused index and the word `w`, which links to it, at `p`. -/
def Image.link (img : Image) (p : Nat) (w : Word) : Image :=
  { cells := Memory.write (Memory.write img.cells img.nfree encodeEmpty) p w, nfree := img.nfree + 1 }

@[simp] theorem Image.link_nfree (img : Image) (p : Nat) (w : Word) : (img.link p w).nfree = img.nfree + 1 := rfl

@[simp] theorem Image.nodeAt_link_self (c : Config) (img : Image) (p : Nat) (w : Word) :
    (img.link p w).nodeAt c p = decodeNode c w := by
  simp [Image.nodeAt, Image.link]

theorem Image.nodeAt_link_new (c : Config) (img : Image) {p : Nat} (w : Word) (h : img.nfree ≠ p) :
    (img.link p w).nodeAt c img.nfree = .empty := by
  simp [Image.nodeAt, Image.link, Memory.read?_write_of_ne _ _ h, decodeNode, encodeEmpty]

theorem Image.nodeAt_link_of_ne (c : Config) (img : Image) {p i : Nat} (w : Word) (hp : i ≠ p) (hn : i ≠ img.nfree) :
    (img.link p w).nodeAt c i = img.nodeAt c i := by
  simp [Image.nodeAt, Image.link, Memory.read?_write_of_ne _ _ hp, Memory.read?_write_of_ne _ _ hn]

/-- The image with the word `w` at `p`. -/
def Image.put (img : Image) (p : Nat) (w : Word) : Image := { img with cells := Memory.write img.cells p w }

@[simp] theorem Image.put_nfree (img : Image) (p : Nat) (w : Word) : (img.put p w).nfree = img.nfree := rfl

@[simp] theorem Image.nodeAt_put_self (c : Config) (img : Image) (p : Nat) (w : Word) :
    (img.put p w).nodeAt c p = decodeNode c w := by
  simp [Image.nodeAt, Image.put]

theorem Image.nodeAt_put_of_ne (c : Config) (img : Image) {p i : Nat} (w : Word) (h : i ≠ p) :
    (img.put p w).nodeAt c i = img.nodeAt c i := by
  simp [Image.nodeAt, Image.put, Memory.read?_write_of_ne _ _ h]

/-- The child fields of a decoded word are indices. -/
theorem childFields_lt {c : Config} (hc : c.Ok) {img : Image} {p l r : Nat}
    (h : childFields (img.nodeAt c p) = .ok (l, r)) : l < c.nodeCount ∧ r < c.nodeCount := by
  have positive : 0 < c.nodeCount := Nat.two_pow_pos _
  cases word : img.nodeAt c p with
  | empty =>
    rw [word] at h
    cases h
    exact ⟨positive, positive⟩
  | node l' r' =>
    rw [word] at h
    cases h
    rw [Image.nodeAt] at word
    cases read : Memory.read? img.cells p with
    | none => simp [read] at word
    | some w => exact decodeNode_node_lt hc (by simpa [read] using word)
  | _ => simp [word, childFields] at h

/-- The child fields `l`, `r` with the child on the side of `b` set to `n`. -/
def withChild (b : Bool) (l r n : Nat) : Nat × Nat := if b then (l, n) else (n, r)

theorem childOf_withChild (b : Bool) (l r n : Nat) :
    childOf b (withChild b l r n).1 (withChild b l r n).2 = n := by
  cases b <;> rfl

/-- Where the child is absent and an index is unused, a step of `Insert` creates the child and links to it. -/
theorem insertStep_creates {c : Config} {img : Image} {p l r : Nat} {b : Bool}
    (fields : childFields (img.nodeAt c p) = .ok (l, r)) (absent : childOf b l r = 0)
    (room : img.nfree < c.nodeCount) :
    insertStep c img p b =
      .ok (img.link p (encodeNode c (withChild b l r img.nfree).1 (withChild b l r img.nfree).2), img.nfree) := by
  simp only [insertStep, fields, absent, ne_eq, not_true_eq_false, if_false, Nat.not_le.2 room]
  cases b <;> rfl

/-- The word of the link decodes to the child fields it was made of. -/
theorem decodeNode_withChild {c : Config} (hc : c.Ok) {img : Image} {p l r n : Nat} (b : Bool)
    (fields : childFields (img.nodeAt c p) = .ok (l, r)) (hn : n < c.nodeCount) :
    decodeNode c (encodeNode c (withChild b l r n).1 (withChild b l r n).2) =
      .node (withChild b l r n).1 (withChild b l r n).2 := by
  obtain ⟨hl, hr⟩ := childFields_lt hc fields
  cases b
  · exact decodeNode_encodeNode hc hn hr
  · exact decodeNode_encodeNode hc hl hn

/-! ## Where a tree stands in an image -/

/-- The tree stands at `p`, its other nodes from `n` on, each node before its left subtree and that before its right
one: the order in which `Insert` creates the nodes for the pairs of the tree (45_toolchain.md R98). -/
def Placed (t : Nat → Instr) : CodeTree → Nat → Nat → Prop
  | .leaf s, p, _ => t p = .leaf s
  | .node l r, p, n => t p = .node n (n + l.size) ∧ Placed t l n (n + 1) ∧ Placed t r (n + l.size) (n + l.size + 1)

theorem CodeTree.size_pos (t : CodeTree) : 0 < t.size := by cases t <;> simp [CodeTree.size]

/-- Only the words of the tree itself matter to where it stands. -/
theorem Placed.congr {t u : Nat → Instr} {tree : CodeTree} {p n : Nat} (h : Placed t tree p n) (root : u p = t p)
    (below : ∀ i, n ≤ i → i + 1 < n + tree.size → u i = t i) : Placed u tree p n := by
  induction tree generalizing p n with
  | leaf s => exact root.trans h
  | node l r ihl ihr =>
    obtain ⟨word, left, right⟩ := h
    have hl := l.size_pos
    have hr := r.size_pos
    simp only [CodeTree.size] at below
    exact ⟨root.trans word,
      ihl left (below n (by omega) (by omega)) fun i _ _ => below i (by omega) (by omega),
      ihr right (below _ (by omega) (by omega)) fun i _ _ => below i (by omega) (by omega)⟩

/-- The Serializer's walk of a tree that stands in an image gives the tree's pairs (45_toolchain.md R104). -/
theorem serializeWalk_of_placed {c : Config} {img : Image} {tree : CodeTree} {depth p n : Nat} (path : Code)
    (h : Placed (img.nodeAt c) tree p n) (hn : 0 < n) (hd : tree.size ≤ depth) :
    serializeWalk c img depth p path = .ok (tree.pairsFrom path) := by
  induction tree generalizing depth p n path with
  | leaf s =>
    obtain ⟨depth, rfl⟩ := Nat.exists_eq_add_one_of_ne_zero (show depth ≠ 0 from Nat.ne_zero_of_lt hd)
    have word : img.nodeAt c p = .leaf s := h
    simp [serializeWalk, word, CodeTree.pairsFrom]
  | node l r ihl ihr =>
    obtain ⟨depth, rfl⟩ := Nat.exists_eq_add_one_of_ne_zero (show depth ≠ 0 from Nat.ne_zero_of_lt hd)
    obtain ⟨word, left, right⟩ := h
    simp only [CodeTree.size, Nat.add_le_add_iff_right] at hd
    have leftPairs := ihl (depth := depth) (path ++ [false]) left (by omega) (by omega)
    have rightPairs := ihr (depth := depth) (path ++ [true]) right (by omega) (by omega)
    simp [serializeWalk, word, hn.ne', leftPairs, rightPairs, CodeTree.pairsFrom]

/-! ## The way to an index -/

/-- The path leads to the index `p` of the image, whatever `p` itself and the unused entries come to hold. -/
structure LeadsTo (c : Config) (img : Image) (p : Nat) (path : Code) : Prop where
  used : p < img.nfree
  hasCode : ∀ u : Nat → Instr, (∀ i, i < img.nfree → i ≠ p → u i = img.nodeAt c i) → HasCode u p path

/-- `img'` has come from `img` by entries at `p` and at unused indices alone. -/
structure GrownAt (c : Config) (p : Nat) (img img' : Image) : Prop where
  more : img.nfree ≤ img'.nfree
  kept : ∀ i, i < img.nfree → i ≠ p → img'.nodeAt c i = img.nodeAt c i

theorem LeadsTo.grown {c : Config} {img img' : Image} {p : Nat} {path : Code} (h : LeadsTo c img p path)
    (g : GrownAt c p img img') : LeadsTo c img' p path where
  used := h.used.trans_le g.more
  hasCode u hu := h.hasCode u fun i hi hp => (hu i (hi.trans_le g.more) hp).trans (g.kept i hi hp)

/-- The path, and a bit more, leads to the child a step of `Insert` has created. -/
theorem LeadsTo.link {c : Config} {img : Image} {p l r : Nat} {b : Bool} {w : Word} {path : Code}
    (h : LeadsTo c img p path) (word : decodeNode c w = .node l r) (child : childOf b l r = img.nfree) :
    LeadsTo c (img.link p w) img.nfree (path ++ [b]) where
  used := Nat.lt_succ_self _
  hasCode u hu := by
    have way : HasCode u p path := h.hasCode u fun i hi hp =>
      (hu i (Nat.lt_succ_of_lt hi) hi.ne).trans (Image.nodeAt_link_of_ne c img w hp hi.ne)
    have node : u p = .node l r := by
      rw [hu p (Nat.lt_succ_of_lt h.used) h.used.ne, Image.nodeAt_link_self, word]
    have present : childOf b l r ≠ 0 := by
      have := h.used
      omega
    exact child ▸ way.snoc node present

theorem Image.link_grownAt (c : Config) (img : Image) (p : Nat) (w : Word) : GrownAt c p img (img.link p w) where
  more := Nat.le_succ _
  kept _ hi hp := Image.nodeAt_link_of_ne c img w hp hi.ne

/-! ## Inserting the pairs of a tree -/

/-- `Insert` of some pairs and then of others. -/
theorem insertAll_append {c : Config} {img img' : Image} {as : List (Int × Code)} (bs : List (Int × Code))
    (h : insertAll c img as = .ok img') : insertAll c img (as ++ bs) = insertAll c img' bs := by
  induction as generalizing img with
  | nil =>
    cases h
    rfl
  | cons a as ih =>
    obtain ⟨s, code⟩ := a
    simp only [List.cons_append, insertAll] at h ⊢
    cases hp : insertPair c img s code with
    | error e => simp [hp] at h
    | ok img₁ =>
      rw [hp] at h
      exact ih h

/-- The Code of a tree's first pair begins with the path to the tree. -/
theorem CodeTree.pairsFrom_eq_cons (t : CodeTree) (path : Code) :
    ∃ s more rest, t.pairsFrom path = (s, path ++ more) :: rest := by
  induction t generalizing path with
  | leaf s => exact ⟨s, [], [], by simp [CodeTree.pairsFrom]⟩
  | node l r ihl _ =>
    obtain ⟨s, more, rest, h⟩ := ihl (path ++ [false])
    exact ⟨s, false :: more, _, by rw [CodeTree.pairsFrom, h, List.append_assoc]; rfl⟩

/-- The first pair of a tree creates the tree's root on its way, and goes on from there as if it had been there: the
pairs may as well be inserted into the image that holds it. -/
theorem insertAll_after_insertStep {c : Config} {img img' : Image} {p q : Nat} {b : Bool} {path : Code}
    (way : HasCode (img.nodeAt c) p path) (created : insertStep c img p b = .ok (img', q))
    (way' : HasCode (img'.nodeAt c) q (path ++ [b])) (t : CodeTree) :
    insertAll c img (intPairs (t.pairsFrom (path ++ [b]))) =
      insertAll c img' (intPairs (t.pairsFrom (path ++ [b]))) := by
  obtain ⟨s, more, rest, pairs⟩ := t.pairsFrom_eq_cons (path ++ [b])
  have walks : insertWalk c img 0 (path ++ [b] ++ more) = insertWalk c img' 0 (path ++ [b] ++ more) := by
    rw [insertWalk_of_walkCode way', List.append_assoc, insertWalk_of_walkCode way]
    simp [insertWalk, created]
  simp only [pairs, List.map_cons, insertAll, insertPair, walks]

/-- `Insert` at a placeholder the Code leads to (45_toolchain.md R98). -/
theorem insertPair_at_empty {c : Config} {img : Image} {p s : Nat} {path : Code} (hs : s < 2 ^ c.symW)
    (way : HasCode (img.nodeAt c) p path) (empty : img.nodeAt c p = .empty) :
    insertPair c img s path = .ok (img.put p (encodeLeaf s)) := by
  rw [insertPair_of_inRange (by omega) (by exact_mod_cast hs), insertWalk_of_hasCode way]
  simp [Except.bind, placeLeaf, empty, Image.put]

/-- Inserting the pairs of the tree at a placeholder puts the whole tree there: its root on the placeholder, its other
nodes on the next unused indices, and nothing else changes. -/
def InsertsAtPlaceholder (c : Config) (t : CodeTree) : Prop :=
  ∀ (img : Image) (p : Nat) (path : Code), LeadsTo c img p path → img.nodeAt c p = .empty →
    (∀ sc ∈ t.pairsFrom path, sc.1 < 2 ^ c.symW) → img.nfree + t.size ≤ c.nodeCount + 1 →
    ∃ img', insertAll c img (intPairs (t.pairsFrom path)) = .ok img' ∧ img'.nfree + 1 = img.nfree + t.size ∧
      Placed (img'.nodeAt c) t p img.nfree ∧ GrownAt c p img img'

/-- So does inserting them where the child is absent: the tree becomes the child. -/
theorem InsertsAtPlaceholder.asChild {c : Config} (hc : c.Ok) {t : CodeTree} (ht : InsertsAtPlaceholder c t)
    {img : Image} {p l r : Nat} {b : Bool} {path : Code} (way : LeadsTo c img p path)
    (fields : childFields (img.nodeAt c p) = .ok (l, r)) (absent : childOf b l r = 0)
    (symbols : ∀ sc ∈ t.pairsFrom (path ++ [b]), sc.1 < 2 ^ c.symW) (room : img.nfree + t.size ≤ c.nodeCount) :
    ∃ img', insertAll c img (intPairs (t.pairsFrom (path ++ [b]))) = .ok img' ∧
      img'.nfree = img.nfree + t.size ∧
      img'.nodeAt c p = .node (withChild b l r img.nfree).1 (withChild b l r img.nfree).2 ∧
      Placed (img'.nodeAt c) t img.nfree (img.nfree + 1) ∧ GrownAt c p img img' := by
  have unused : img.nfree < c.nodeCount := by
    have := t.size_pos
    omega
  have created := insertStep_creates fields absent unused
  have word := decodeNode_withChild hc b fields unused
  generalize encodeNode c _ _ = w at created word
  have way' := way.link word (childOf_withChild b l r img.nfree)
  obtain ⟨img', inserted, nfree, placed, grown⟩ := ht _ _ _ way' (Image.nodeAt_link_new c img w way.used.ne')
    symbols (by rw [Image.link_nfree]; omega)
  rw [Image.link_nfree] at nfree placed
  refine ⟨img', ?_, by omega, ?_, placed, by omega, fun i hi hp => ?_⟩
  · rw [insertAll_after_insertStep (way.hasCode _ fun _ _ _ => rfl) created (way'.hasCode _ fun _ _ _ => rfl), inserted]
  · rw [grown.kept p (Nat.lt_succ_of_lt way.used) way.used.ne, Image.nodeAt_link_self, word]
  · exact (grown.kept i (Nat.lt_succ_of_lt hi) hi.ne).trans ((img.link_grownAt c p w).kept i hi hp)

/-- Every tree: a leaf by one `Insert`; a node by its left subtree as the left child of the placeholder, then its right
subtree as the right child of the node that has become of it. -/
theorem insertsAtPlaceholder {c : Config} (hc : c.Ok) (t : CodeTree) : InsertsAtPlaceholder c t := by
  induction t with
  | leaf s =>
    intro img p path way empty symbols _
    have hs : s < 2 ^ c.symW := symbols (s, path) (List.mem_singleton.2 rfl)
    refine ⟨img.put p (encodeLeaf s), ?_, rfl, ?_, le_rfl, fun i _ hp => Image.nodeAt_put_of_ne c img _ hp⟩
    · simp [CodeTree.pairsFrom, insertAll, insertPair_at_empty hs (way.hasCode _ fun _ _ _ => rfl) empty]
    · rw [Placed, Image.nodeAt_put_self, decodeNode_encodeLeaf hc hs]
  | node l r ihl ihr =>
    intro img p path way empty symbols room
    simp only [CodeTree.size] at room
    obtain ⟨leftSymbols, rightSymbols⟩ := List.forall_mem_append.1 symbols
    obtain ⟨img₁, left, nfree₁, word₁, placedLeft, grown₁⟩ :=
      ihl.asChild hc (b := false) way (by rw [empty]; rfl) rfl leftSymbols (by omega)
    obtain ⟨img₂, right, nfree₂, word₂, placedRight, grown₂⟩ :=
      ihr.asChild hc (b := true) (way.grown grown₁) (by rw [word₁]; rfl) rfl rightSymbols (by omega)
    have leftKept : ∀ i, img.nfree ≤ i → i < img.nfree + l.size → img₂.nodeAt c i = img₁.nodeAt c i :=
      fun i hi hl => grown₂.kept i (by omega) (by have := way.used; omega)
    have hl := l.size_pos
    rw [nfree₁] at word₂ placedRight
    refine ⟨img₂, ?_, by simp only [CodeTree.size]; omega, ⟨word₂, ?_, placedRight⟩,
      grown₁.more.trans grown₂.more, fun i hi hp => ?_⟩
    · rw [CodeTree.pairsFrom, intPairs, List.map_append, insertAll_append _ left, right]
    · exact placedLeft.congr (leftKept _ le_rfl (by omega)) fun i _ _ => leftKept i (by omega) (by omega)
    · exact (grown₂.kept i (hi.trans_le grown₁.more) hp).trans (grown₁.kept i hi hp)

/-- Settles O57: the pairs put the tree at the placeholder root, where the Serializer finds it. -/
theorem canonicalImageSerializesToItsTree : Obligations.CanonicalImageSerializesToItsTree := by
  intro c t hc symbols size
  have root : LeadsTo c Image.initial 0 [] := ⟨Nat.one_pos, fun _ _ => rfl⟩
  have empty : Image.initial.nodeAt c 0 = .empty := rfl
  obtain ⟨img, inserted, -, placed, -⟩ := insertsAtPlaceholder hc t _ _ _ root empty symbols
    (by rw [Nat.add_comm]; exact Nat.succ_le_succ size)
  exact ⟨img, inserted, serializeWalk_of_placed [] placed Nat.one_pos size⟩

end Sys2Proof.Toolchain
end

section
/-! PROOFS. The faults (spec 60_exceptions.md): which cause an engine step raises and what the fault leaves unchanged,
the ways out of FAULT, and the one step that emits. -/

namespace Sys2Proof.Machine

/-! ## The cause a node word raises (60_exceptions.md R119) -/

section

variable {s t : State} {i : Instr} (he : EngineEffect s i t) (hc : s.cause = .none)

include he hc

theorem EngineEffect.cause_eq_illegalNode_iff : t.cause = .illegalNode ↔ ∃ w, i = .illegal w := by
  cases he with
  | illegal => simp
  | empty | nodeTruncated | nodeNull => simp
  | leafRoot | leafBelow | nodeEnd | nodeMoves => simp [hc]

theorem EngineEffect.cause_eq_emptyNode_iff : t.cause = .emptyNode ↔ i = .empty := by
  cases he with
  | empty => simp
  | illegal | nodeTruncated | nodeNull => simp
  | leafRoot | leafBelow | nodeEnd | nodeMoves => simp [hc]

theorem EngineEffect.cause_eq_truncated_iff :
    t.cause = .truncated ↔ (∃ l r, i = .node l r) ∧ s.bits = [] ∧ s.np ≠ 0 := by
  cases he with
  | nodeTruncated hb h0 => simp [hb, h0]
  | nodeEnd _ h0 => simp [hc, h0]
  | nodeNull hb => simp [hb]
  | nodeMoves hb => simp [hc, hb]
  | empty | illegal => simp
  | leafRoot | leafBelow => simp [hc]

theorem EngineEffect.cause_eq_nullChild_iff :
    t.cause = .nullChild ↔ ∃ l r, i = .node l r ∧ ∃ b rest, s.bits = b :: rest ∧ childOf b l r = 0 := by
  cases he with
  | nodeNull hb h0 => simp [hb, h0]
  | nodeMoves hb h0 => simp [hc, hb, h0]
  | nodeEnd hb => simp [hc, hb]
  | nodeTruncated hb => simp [hb]
  | empty | illegal => simp
  | leafRoot | leafBelow => simp [hc]

end

/-- The next bit selects an absent child on the one side or on the other (30_encoding.md R53). -/
theorem exists_childOf_eq_zero_iff {bits : List Bool} {l r : Nat} :
    (∃ b rest, bits = b :: rest ∧ childOf b l r = 0) ↔
      (∃ rest, bits = false :: rest) ∧ l = 0 ∨ (∃ rest, bits = true :: rest) ∧ r = 0 := by
  simp [Bool.exists_bool, childOf]

/-! ## What a fault writes (60_exceptions.md R116, R117) -/

/-- A node word that ends a run in FAULT has raised a cause in the state it found, or NULL_CHILD after the one bit it
took. -/
theorem EngineEffect.eq_raiseFault {s t : State} {i : Instr} (he : EngineEffect s i t) (hr : s.state = .run)
    (ht : t.state = .fault) :
    (∃ c, c ≠ .none ∧ c ≠ .nullChild ∧ t = raiseFault c s) ∨
      ∃ b rest, s.bits = b :: rest ∧ t = raiseFault .nullChild (setStream rest s) := by
  cases he with
  | empty | illegal | nodeTruncated => exact .inl ⟨_, by decide, by decide, rfl⟩
  | nodeNull hb => exact .inr ⟨_, _, hb, rfl⟩
  | leafRoot | nodeEnd => cases ht
  | leafBelow | nodeMoves => cases hr.symm.trans ht

/-! ## The ways out of FAULT (60_exceptions.md R121) -/

/-- The only host instruction that leaves FAULT is CLEAR, in either spelling. -/
theorem DueEffect.eq_acknowledge {s t : State} {i : Instr} (h : DueEffect s t i) (hs : s.state = .fault)
    (ht : t.state ≠ .fault) : (i = .clear ∨ i = .csrwr 0 0x00000002#32) ∧ t = acknowledge s := by
  have clear : execClear s = .next t → t = acknowledge s := fun h =>
    Host.Outcome.next.inj (h.symm.trans (execClear_of_not_run (by simp [hs])))
  cases h with
  | clear h => exact ⟨.inl rfl, clear h⟩
  | ctrlClear h => exact ⟨.inr rfl, clear h⟩
  | start h | ctrlStart h =>
    cases (execStart_of_refused (.inr hs)).symm.trans h
    exact absurd hs ht
  | _ => subst_vars; exact absurd hs ht

/-- A bus access that is no abstract access leaves STATE alone. -/
theorem dropAccess_state (e : DecodeError) (isRead : Bool) (s : State) : (dropAccess e isRead s).state = s.state := by
  cases e <;> cases isRead <;> rfl

/-! ## The statements -/

/-- Settles O36: the step is a node word's, which raises each cause exactly on its own test; STATE follows CAUSE by the
invariant. -/
theorem faultCauseFollowsTheOrderOfTests : Obligations.FaultCauseFollowsTheOrderOfTests := by
  intro s t h hr hd hs
  obtain ⟨es, -, he⟩ := engine_step_inv hr hd hs
  have hc : (setPending es s).cause = .none := h.cause_eq_none (by simp [hr])
  refine ⟨he.cause_eq_illegalNode_iff hc, he.cause_eq_emptyNode_iff hc, he.cause_eq_truncated_iff hc, ?_,
    (everyStepKeepsTheInvariant s t h hs).causeIff.symm⟩
  simpa only [exists_childOf_eq_zero_iff, setPending_bits] using he.cause_eq_nullChild_iff hc

/-- Settles O37: the next state is the one the word found with STATE and CAUSE written, and NULL_CHILD's bit taken. -/
theorem faultWritesOnlyStateAndCause : Obligations.FaultWritesOnlyStateAndCause := by
  intro s t _ hr hd hs ht
  obtain ⟨es, -, he⟩ := engine_step_inv hr hd hs
  rcases he.eq_raiseFault hr ht with ⟨c, hc, hn, rfl⟩ | ⟨b, rest, hb, rfl⟩
  · exact ⟨rfl, rfl, fun _ => rfl, rfl, rfl, hc, fun _ => rfl, fun e => absurd e hn⟩
  · exact ⟨rfl, rfl, fun _ => rfl, rfl, rfl, by simp, fun hn => absurd rfl hn, fun _ => ⟨b, hb⟩⟩

/-- Settles O38: of the turns that can be due in FAULT only CLEAR's and a reset's write STATE. -/
theorem faultIsLeftOnlyByClearOrReset : Obligations.FaultIsLeftOnlyByClearOrReset := by
  intro s t hf hs hne
  cases step_inv hs with
  | @host _ _ i _ hr hp hd he =>
    have due : ∀ {j}, i = j → s.HostDue j := fun hj => ⟨_, _, hr, hp, hj ▸ hd⟩
    obtain ⟨hi, rfl⟩ := he.eq_acknowledge hf hne
    exact ⟨.inl (hi.imp due due), rfl, rfl, rfl, rfl⟩
  | rst hp => exact ⟨.inr ⟨_, .inl hp⟩, rfl, rfl, rfl, rfl⟩
  | powerOn hp => exact ⟨.inr ⟨_, .inr hp⟩, rfl, rfl, rfl, rfl⟩
  | engine _ hr => cases hf.symm.trans hr
  | @busDropped es => exact absurd ((dropAccess_state _ _ (setPending es s)).trans hf) hne
  | engineRests | stream => exact absurd hf hne

/-- Settles O51: a node word emits only as a LEAF, which takes no bit, and every other turn leaves `out` alone. -/
theorem onlyLeavesEmit : Obligations.OnlyLeavesEmit := by
  intro s t hs
  rcases step_streams hs with ⟨_, hd, hr, -, he⟩ | ⟨-, ho, -⟩
  · rcases he.streams with ⟨x, hi, hb, ho⟩ | ⟨_, _, _, -, -, ho⟩ | ⟨-, -, -, ho⟩
    · exact .inr ⟨hd, hr, hb, x, hi, ho⟩
    · exact .inl ho
    · exact .inl ho
  · exact .inl ho

end Sys2Proof.Machine
end

section
/-! PROOFS. Reset and power-on (spec 70_reset_and_hazards.md R129 to R131, 10_state.md section 10): what the host and
the ports see of a block whose registers are at their reset values, and the invariant at `State.reset`. -/

namespace Sys2Proof.Machine

/-! ## What is seen of the reset values -/

/-- STATUS is 0 when each of its three fields is at its reset value. -/
theorem statusWord_eq_zero {s : State} (state : s.state = .idle) (cause : s.cause = .none)
    (hostErr : s.hostErr = false) : s.statusWord = 0x00000000#32 := by
  apply BitVec.eq_of_toNat_eq
  rw [statusWord_toNat, state, cause, hostErr]
  rfl

theorem npWord_eq_zero {s : State} (np : s.np = 0) : s.npWord = 0x00000000#32 := by rw [State.npWord, np]

/-- In IDLE none of the level outputs is asserted. -/
theorem levelOutputs_of_idle {s : State} (state : s.state = .idle) :
    s.busy = false ∧ s.doneOut = false ∧ s.faultOut = false := by
  simp [State.busy, State.doneOut, State.faultOut, state]

/-- Outside RUN no word is in the step, so the block neither takes a bit nor emits a symbol, whatever is due. -/
theorem portSignals_of_not_run {s : State} (state : s.state ≠ .run) :
    s.bsTakeSignal = false ∧ s.symValid = false := by
  have no_word : wordInStep s = none := wordInStep_eq_none fun h => state h.2
  simp [State.bsTakeSignal, State.symValid, State.symData, no_word]

/-- Where nothing is written every entry reads as the word of the last power-on. -/
theorem memRead_of_nothing_written {s : State} (lut : s.lut = []) (i : Nat) :
    memRead s i = Config.powerOnWord s.powerOns i := by
  rw [memRead, lut]
  rfl

/-! ## The statements -/

/-- Settles O12: the step is the reset of the block, whose registers then read as their reset values. -/
theorem resetWritesTheFourRegisters : Obligations.ResetWritesTheFourRegisters := by
  intro s es hp
  obtain ⟨busy, done, fault⟩ := levelOutputs_of_idle (resetBlock_state (setPending es s))
  obtain ⟨take, valid⟩ := portSignals_of_not_run (s := resetBlock (setPending es s)) (by simp)
  exact ⟨resetBlock (setPending es s), step_cons hp, rfl, statusWord_eq_zero rfl rfl rfl, npWord_eq_zero rfl, rfl,
    busy, done, fault, take, valid⟩

/-- Settles O13: the step is the power-on of the block, which leaves nothing written and counts one power-on more. -/
theorem powerOnLeavesTheLutUnspecified : Obligations.PowerOnLeavesTheLutUnspecified := fun s es hp =>
  ⟨powerOnBlock (setPending es s), step_cons hp, rfl, rfl, rfl, rfl, rfl, rfl, rfl, rfl, rfl,
    memRead_of_nothing_written rfl⟩

/-- Settles O14: `State.reset` has its registers at their reset values and nothing written, at power-on number 0. -/
theorem resetStateReadsAsTheTable : Obligations.ResetStateReadsAsTheTable := by
  obtain ⟨busy, done, fault⟩ := levelOutputs_of_idle (s := State.reset) rfl
  obtain ⟨take, valid⟩ := portSignals_of_not_run (s := State.reset) (by decide)
  have config : configWord State.reset.cfg = 0x00000C10#32 := by decide
  exact ⟨rfl, rfl, rfl, rfl, statusWord_eq_zero rfl rfl rfl, npWord_eq_zero rfl, config, busy, done, fault, take,
    valid, memRead_of_nothing_written rfl⟩

/-- Settles O31: the default parameters are legal, and the LUT and the sink are empty. -/
theorem invariantHoldsAtReset : Obligations.InvariantHoldsAtReset where
  cfgOk := Laws.TableRow.default_ok
  lutWf := Memory.wf_nil
  lutRange := fun _ he => absurd he List.not_mem_nil
  npRange := nodeCount_pos Config.default
  npAtRest := fun _ => rfl
  causeIff := by decide
  outRange := fun _ hx => absurd hx List.not_mem_nil

end Sys2Proof.Machine
end
